-- ==== Sys2Proof/Word.lean ====
section
/-! DEFINITION. The two word types of the CORE: the 32-bit datum of the host port and the byte of the buffers. Every value
is unsigned (00_scope R9). -/

namespace Sys2Proof

/-- XLEN = 32 bits: field registers, operand registers, HACC, KEY, length registers, register numbers, command words and
host data (00_scope R7). -/
abbrev Word := BitVec 32

/-- One byte, 0 to 255 (00_scope R10). -/
abbrev Byte := BitVec 8

end Sys2Proof
end

