-- ==== Sys2Proof/Syntax.lean ====
section
/-! DEFINITION. The eleven commands of the CORE, one constructor per row of spec/opcode_table.json (30_encoding R84). -/

namespace Sys2Proof

/-- A command. Only HUPD has an explicit operand, its immediate byte (30_encoding R83), held as a number: that it is below
256 is `Instr.wellFormed`. -/
inductive Instr where
  | nop | init | refresh | pack | unpack | hclr | hupd (b : Nat) | hbuf | obf | b64 | emit
deriving DecidableEq, Repr

end Sys2Proof
end

