-- ==== Sys2Proof/WellFormed.lean ====
section
/-! DEFINITION. Which terms of `Instr` are commands of the hardware: the immediate of HUPD is a byte. -/

namespace Sys2Proof

/-- `imm8` is "an unsigned byte 0 to 255 used as is" (30_encoding R83); no other command has an operand to check. -/
def Instr.wellFormed : Instr → Bool
  | .hupd b => decide (b < 256)
  | .nop => true
  | .init => true
  | .refresh => true
  | .pack => true
  | .unpack => true
  | .hclr => true
  | .hbuf => true
  | .obf => true
  | .b64 => true
  | .emit => true

end Sys2Proof
end

