-- ==== Sys2Proof/Decode.lean ====
section
/-! DEFINITION. Decoding a command word, total on any 32-bit word (30_encoding R80 to R86), the encoder written from the same
tables, the opcode map as match and mask rows, and the host's `decodeTableWord`. -/

namespace Sys2Proof

/-- Why a word is illegal (30_encoding R85). The hardware raises ILLEGAL_CMD for each alike (R86); the names are for readers. -/
inductive IllegalWord where
  | zero16NotZero   -- bits 31 to 16 are not zero
  | opcodeUnmapped  -- opcode above 0x0A
  | strayImmediate  -- bits 15 to 8 not zero on a command other than HUPD
deriving DecidableEq, Repr

/-- Bits 7 to 0, the opcode (30_encoding R81, R82). -/
def opcodeField (c : Word) : Nat := (c.extractLsb' 0 8).toNat

/-- Bits 15 to 8, imm8 of format CI and zero8 of format C0 (30_encoding R81 to R83). -/
def imm8Field (c : Word) : Nat := (c.extractLsb' 8 8).toNat

/-- Bits 31 to 16, which must be zero in both formats (30_encoding R81, R82). -/
def zero16Field (c : Word) : Nat := (c.extractLsb' 16 16).toNat

/-- The command an opcode selects (30_encoding R84, R86). -/
def commandOf (op imm8 : Nat) : Option Instr :=
  match op with
  | 0x00 => some .nop
  | 0x01 => some .init
  | 0x02 => some .refresh
  | 0x03 => some .pack
  | 0x04 => some .unpack
  | 0x05 => some .hclr
  | 0x06 => some (.hupd imm8)
  | 0x07 => some .hbuf
  | 0x08 => some .obf
  | 0x09 => some .b64
  | 0x0A => some .emit
  | _ => none

/-- The decode procedure of 30_encoding R86; its three checks may stand in any order. -/
def decode (c : Word) : Except IllegalWord Instr :=
  if zero16Field c ≠ 0 then .error .zero16NotZero
  else match commandOf (opcodeField c) (imm8Field c) with
    | none => .error .opcodeUnmapped
    | some i =>
      if opcodeField c ≠ 0x06 ∧ imm8Field c ≠ 0 then .error .strayImmediate else .ok i

/-- The opcode of a command (30_encoding R84). -/
def Instr.opcode : Instr → Nat
  | .nop => 0x00
  | .init => 0x01
  | .refresh => 0x02
  | .pack => 0x03
  | .unpack => 0x04
  | .hclr => 0x05
  | .hupd _ => 0x06
  | .hbuf => 0x07
  | .obf => 0x08
  | .b64 => 0x09
  | .emit => 0x0A

/-- What stands in bits 15 to 8: imm8 for HUPD, zero8 for the rest (30_encoding R81, R82). -/
def Instr.immediate : Instr → Nat
  | .hupd b => b
  | .nop => 0
  | .init => 0
  | .refresh => 0
  | .pack => 0
  | .unpack => 0
  | .hclr => 0
  | .hbuf => 0
  | .obf => 0
  | .b64 => 0
  | .emit => 0

/-- The command word (30_encoding R84): the opcode, plus the immediate b as `b << 8`. -/
def encode (i : Instr) : Word := BitVec.ofNat 32 (i.opcode + i.immediate <<< 8)

/-- The mnemonic of 30_encoding R84, as spec/opcode_table.json spells it. -/
def Instr.mnemonic : Instr → String
  | .nop => "NOP"
  | .init => "INIT"
  | .refresh => "REFRESH"
  | .pack => "PACK"
  | .unpack => "UNPACK"
  | .hclr => "HCLR"
  | .hupd _ => "HUPD"
  | .hbuf => "HBUF"
  | .obf => "OBF"
  | .b64 => "B64"
  | .emit => "EMIT"

/-- One row of spec/opcode_table.json: a word c belongs to it when `c &&& mask = pattern`. -/
structure OpcodeRow where
  name : String
  pattern : Word
  mask : Word
deriving DecidableEq, Repr

/-- The opcode table as match and mask pairs (spec/opcode_table.json; 30_encoding R86, last paragraph). -/
def opcodeTable : List OpcodeRow :=
  [⟨"NOP", 0x00000000, 0xFFFFFFFF⟩, ⟨"INIT", 0x00000001, 0xFFFFFFFF⟩, ⟨"REFRESH", 0x00000002, 0xFFFFFFFF⟩,
   ⟨"PACK", 0x00000003, 0xFFFFFFFF⟩, ⟨"UNPACK", 0x00000004, 0xFFFFFFFF⟩, ⟨"HCLR", 0x00000005, 0xFFFFFFFF⟩,
   ⟨"HUPD", 0x00000006, 0xFFFF00FF⟩, ⟨"HBUF", 0x00000007, 0xFFFFFFFF⟩, ⟨"OBF", 0x00000008, 0xFFFFFFFF⟩,
   ⟨"B64", 0x00000009, 0xFFFFFFFF⟩, ⟨"EMIT", 0x0000000A, 0xFFFFFFFF⟩]

/-- A word matches a row of the table (30_encoding R86). -/
def OpcodeRow.matchesWord (r : OpcodeRow) (c : Word) : Bool := c &&& r.mask == r.pattern

/-- The instruction the decoder reads from an instruction whose bits are `w`, numbered as spec/opcode_table.json numbers
them; bits at and above `nbits` are zero. A command is one 32-bit datum of the port, which has no byte order (20_memory
R58), so its bits are the word itself; a number that needs more than 32 bits is no command word (log 9). -/
def decodeTableWord (nbits w : Nat) : Option Instr :=
  let c := w % 2 ^ nbits
  if c < 2 ^ 32 then (decode (BitVec.ofNat 32 c)).toOption else none

end Sys2Proof
end

