-- ==== Sys2Proof/Config.lean ====
section
/-! DEFINITION. The constants of the CORE (00_scope R6, R7; 10_state R37). They are constants of the hardware, not state.
Nothing is left open on the hardware's side (93_implementation_defined part 2), so no constant here is opaque. -/

namespace Sys2Proof.Config

/-- The width table W, in bytes, in index order (10_state R21). -/
def widths : List Nat := [4, 4, 4, 4, 1, 1, 1, 3, 2, 2, 2, 2, 2, 2, 2, 4, 2, 1]

/-- Number of fields (00_scope R6). -/
def nFields : Nat := 18

/-- Length of the packed buffer, the sum of the widths (00_scope R6); also PBUF_CAP (R7). -/
def packedLen : Nat := 43

/-- Length of the obfuscation header (00_scope R6). -/
def hdrLen : Nat := 2

/-- Length of the obfuscated buffer (00_scope R6); also OBUF_CAP (R7). -/
def obfLen : Nat := 45

/-- Characters per token (00_scope R6); also TBUF_CAP (R7). -/
def tokenLen : Nat := 60

/-- Hash multiplier HASH_MUL (00_scope R6). -/
def hashMul : Nat := 31

/-- Key schedule multiplier KEY_MUL (00_scope R6). -/
def keyMul : Nat := 131

/-- First header byte HDR_VERSION (00_scope R6). -/
def hdrVersion : Nat := 3

/-- Browser index, the constant of field 5 (00_scope R6). -/
def f5Const : Nat := 11

/-- Browser feature flags, the constant of field 13 (00_scope R6). -/
def f13Const : Nat := 2848

/-- Protocol version marker, the constant of field 17 (00_scope R6). -/
def f17Const : Nat := 3

/-- Modulus of the emission counter, field 16 (00_scope R6). -/
def ctrMod : Nat := 65536

/-- Number of operand registers (00_scope R7). -/
def nArgs : Nat := 8

/-- Register number of PBUF[0] (20_memory R51). -/
def pbufBase : Nat := 0x100

/-- Register number of OBUF[0] (20_memory R51). -/
def obufBase : Nat := 0x140

/-- Register number of TBUF[0] (20_memory R51). -/
def tbufBase : Nat := 0x180

/-- What a buffer byte that is not listed in memory holds: the reset contents (10_state R38). -/
def unlisted : Byte := 0

/-- A width table is legal only if it is the table of 00_scope R6, entry by entry (00_scope R8). -/
def legalTable (table : List Nat) : Bool := table == widths

end Sys2Proof.Config
end

