-- ==== Sys2Proof/Machine/State.lean ====
section
/-! DEFINITION. The state of one CORE as plain data (10_state R20 to R38), the host's side of its port (30_encoding R90;
70_reset_and_hazards R243), the reasons a step could stop, and the state after reset. -/

namespace Sys2Proof.Machine

/-- One host operation, one line of a script: reset, HostRead(n), HostWrite(n, v) (30_encoding R89, R90). A command is a
write of its word to register CMD. -/
inductive HostOp where
  | reset
  | read (n : Word)
  | write (n v : Word)
deriving DecidableEq, Repr

/-- The three faults of the port (60_exceptions R200). They are recorded in FCODE and FINFO and are next states. -/
inductive PortFault where
  | illegalCmd | badReg | badValue
deriving DecidableEq, Repr

/-- The reasons a step stops with a fault: NONE. No engine faults in any state (60_exceptions R204), and the three port
faults have an entry the spec describes (R208), which the model takes as a next state (log 3). Nobody raises a constructor of
this type; that is safe because no run is cut short. -/
inductive Fault where
deriving DecidableEq, Repr

/-- The reasons a step or a construction is refused. -/
inductive Refusal where
  /-- Raised by an arm of `exec` for an instruction that has no meaning yet; no arm raises it. Safe: the model stops. -/
  | notModelled (mnemonic : String)
  /-- Raised by `construct` for a width table other than the specified one, "fatal at construction time" (00_scope R8;
  60_exceptions R205). No step raises it. Safe: the spec asks for this refusal. -/
  | configurationCorruption
deriving DecidableEq, Repr

/-- Buffer bytes by register number: cells with strictly rising numbers, none equal to `Config.unlisted` (log 6). -/
abbrev Memory := List Host.Cell

/-- The state. The fields down to `mem` are the CORE's (10_state); `pending`, `pc` and `delivered` are the host's side of the
port, the model's own bookkeeping (log 1, log 17). -/
structure State where
  /-- F[0] to F[17] (10_state R20). -/
  f : Vector Word 18
  /-- A[0] to A[7] (10_state R24). -/
  a : Vector Word 8
  /-- HACC (10_state R25). -/
  hacc : Word
  /-- KEY (10_state R26). -/
  key : Word
  /-- PLEN (10_state R27). -/
  plen : Word
  /-- OLEN (10_state R27). -/
  olen : Word
  /-- TLEN (10_state R27). -/
  tlen : Word
  /-- STATUS bits 7 to 0 (10_state R28); the other bits of STATUS hold nothing. -/
  fcode : Byte
  /-- FINFO (10_state R29). -/
  finfo : Word
  /-- PBUF, OBUF and TBUF (10_state R31 to R33), by register number. -/
  mem : Memory
  /-- The host operations not yet performed, in the order the port takes them (20_memory R61). -/
  pending : List HostOp
  /-- Lines of the script performed so far, the model's pc (10_state R34). -/
  pc : Nat
  /-- The values the host's reads returned, oldest first (70_reset_and_hazards R243). -/
  delivered : List Word
deriving DecidableEq, Repr

/-- The machine right after reset: every register and buffer byte 0 (10_state R38), no host operation yet. -/
def State.reset : State where
  f := Vector.replicate 18 0
  a := Vector.replicate 8 0
  hacc := 0
  key := 0
  plen := 0
  olen := 0
  tlen := 0
  fcode := 0
  finfo := 0
  mem := []
  pending := []
  pc := 0
  delivered := []

end Sys2Proof.Machine
end

