-- ==== Sys2Proof/Machine/Flags.lean ====
section
/-! DEFINITION. The status computations. The CORE has no flags and no condition codes (10_state R35); its one status is the
fault code FCODE, which only a fault at the port or a reset writes (R28). -/

namespace Sys2Proof.Machine

/-- The code of a fault (60_exceptions R200); 0 means no fault. -/
def PortFault.code : PortFault → Byte
  | .illegalCmd => 1
  | .badReg => 2
  | .badValue => 3

/-- "The CORE is halted exactly when FCODE is not 0" (10_state R28). -/
def State.halted (s : State) : Bool := s.fcode != 0

/-- STATUS as the host reads it: FCODE in bits 7 to 0 and 0 above (10_state R28; 20_memory R52). -/
def State.status (s : State) : Word := s.fcode.setWidth 32

end Sys2Proof.Machine
end

