-- ==== Sys2Proof/Machine/Ops.lean ====
section
/-! DEFINITION. The named operations over memory and registers, the one fault entry (60_exceptions R208) with the reset that
alone leaves the halted state (70_reset_and_hazards R230) beside it, and the taking of the next host operation. -/

namespace Sys2Proof.Machine

/-- The byte held at register number `a`. -/
def Memory.read (m : Memory) (a : Nat) : Byte :=
  match m with
  | [] => Config.unlisted
  | (k, b) :: rest => if k = a then b else Memory.read rest a

/-- Memory without any cell for `a`. -/
def Memory.erase (m : Memory) (a : Nat) : Memory := m.filter (fun c => c.1 != a)

/-- Put a cell where the rising order wants it. -/
def Memory.insertCell (m : Memory) (a : Nat) (b : Byte) : Memory :=
  match m with
  | [] => [(a, b)]
  | (k, c) :: rest => if k < a then (k, c) :: Memory.insertCell rest a b else (a, b) :: (k, c) :: rest

/-- Write one byte; writing what an unlisted number holds removes the cell, so that equal memories are equal lists. -/
def Memory.write (m : Memory) (a : Nat) (b : Byte) : Memory :=
  if b = Config.unlisted then m.erase a else (m.erase a).insertCell a b

/-- Write a sequence of bytes at rising register numbers from `base`. -/
def Memory.writeBytes (m : Memory) (base : Nat) (bs : List Byte) : Memory :=
  match bs with
  | [] => m
  | b :: rest => Memory.writeBytes (m.write base b) (base + 1) rest

/-- The `n` bytes at register numbers `base`, `base + 1`, and so on. -/
def Memory.bytes (m : Memory) (base n : Nat) : List Byte := (List.range n).map (fun k => m.read (base + k))

/-- The canonical form: numbers strictly rising, no cell holding what an unlisted number holds. -/
def Memory.wf (m : Memory) : Bool :=
  match m with
  | [] => true
  | (k, b) :: rest => b != Config.unlisted && rest.all (fun c => decide (k < c.1)) && Memory.wf rest

/-- F <- v. -/
def State.setF (v : Vector Word 18) (s : State) : State := { s with f := v }

/-- A <- v. -/
def State.setA (v : Vector Word 8) (s : State) : State := { s with a := v }

/-- HACC <- v. -/
def State.setHacc (v : Word) (s : State) : State := { s with hacc := v }

/-- KEY <- v. -/
def State.setKey (v : Word) (s : State) : State := { s with key := v }

/-- PLEN <- v. -/
def State.setPlen (v : Word) (s : State) : State := { s with plen := v }

/-- OLEN <- v. -/
def State.setOlen (v : Word) (s : State) : State := { s with olen := v }

/-- TLEN <- v. -/
def State.setTlen (v : Word) (s : State) : State := { s with tlen := v }

/-- The buffers <- m. -/
def State.setMem (m : Memory) (s : State) : State := { s with mem := m }

/-- FCODE and FINFO, the two registers a fault writes. -/
def State.setFault (code : Byte) (info : Word) (s : State) : State := { s with fcode := code, finfo := info }

/-- A read returns `v` to the host (70_reset_and_hazards R243). -/
def State.deliver (v : Word) (s : State) : State := { s with delivered := s.delivered ++ [v] }

/-- PBUF[0..PLEN-1], the valid bytes of the packed buffer (10_state R31). PLEN is at most 43 in every state a run reaches
(R27); a PLEN above it reads the 43 bytes there are (log 7). -/
def State.pbufValid (s : State) : List Byte := s.mem.bytes Config.pbufBase (min s.plen.toNat Config.packedLen)

/-- OBUF[0..OLEN-1], the valid bytes of the obfuscated buffer (10_state R32); the cut at 45 as for PBUF (log 7). -/
def State.obufValid (s : State) : List Byte := s.mem.bytes Config.obufBase (min s.olen.toNat Config.obfLen)

/-- Fault entry (60_exceptions R208): when FCODE is 0, FCODE <- the code and FINFO <- the information word; nothing else
changes. A fault is never recorded over an earlier one (R211). -/
def State.raise (p : PortFault) (info : Word) (s : State) : State := if s.halted then s else s.setFault p.code info

/-- The reset operation (70_reset_and_hazards R230): every CORE register and buffer byte takes its value of 10_state R38, in
the halted state too. The host's side (`pending`, `pc`, `delivered`) is not the CORE's and stays (log 17). -/
def State.resetCore (s : State) : State :=
  { State.reset with pending := s.pending, pc := s.pc, delivered := s.delivered }

/-- Take the next line of the script: the operation, and the state in which it is performed. Every line advances the pc by 1
(10_state R34). -/
def State.nextOp (s : State) : Option (HostOp × State) :=
  match s.pending with
  | [] => none
  | op :: rest => some (op, { s with pending := rest, pc := s.pc + 1 })

end Sys2Proof.Machine
end

