-- ==== Sys2Proof/Machine/Base64.lean ====
section
/-! DEFINITION. CustomBase64: the alphabet (43_base64 R160), the ASCII codes (R166), `encode` (R161, R162) and the command
B64 (R165). -/

namespace Sys2Proof.Machine

/-- The 64 characters in position order (43_base64 R160). -/
def alphabet : List Char :=
  ['A', 'B', 'C', 'D', 'E', 'F', 'G', 'H', 'I', 'J', 'K', 'L', 'M', 'N', 'O', 'P',
   'Q', 'R', 'S', 'T', 'U', 'V', 'W', 'X', 'Y', 'Z', 'a', 'b', 'c', 'd', 'e', 'f'] ++
  ['g', 'h', 'i', 'j', 'k', 'l', 'm', 'n', 'o', 'p', 'q', 'r', 's', 't', 'u', 'v',
   'w', 'x', 'y', 'z', '0', '1', '2', '3', '4', '5', '6', '7', '8', '9', '-', '_']

/-- `ALPHA[p]` (43_base64 R160). -/
def alphaChar (p : BitVec 6) : Char := alphabet.getD p.toNat 'A'

/-- The code a token character is stored as (43_base64 R166): its number in ASCII, which for these characters is Lean's
`Char.toNat`; R166's formula over positions is an obligation. -/
def asciiCode (c : Char) : Byte := BitVec.ofNat 8 c.toNat

/-- The four 6-bit positions of one group, most significant first (43_base64 R161). -/
def sextetsOf (b0 b1 b2 : Byte) : List (BitVec 6) :=
  let chunk : BitVec 24 := b0 ++ b1 ++ b2
  [chunk.extractLsb' 18 6, chunk.extractLsb' 12 6, chunk.extractLsb' 6 6, chunk.extractLsb' 0 6]

/-- The alphabet positions of a byte sequence, groups of three in input order; missing bytes of a trailing group count as 0
and all four positions are still given (43_base64 R161, R162). -/
def sextets : List Byte → List (BitVec 6)
  | [] => []
  | [b0] => sextetsOf b0 0 0
  | [b0, b1] => sextetsOf b0 b1 0
  | b0 :: b1 :: b2 :: rest => sextetsOf b0 b1 b2 ++ sextets rest

/-- `encode(s)` (43_base64 R161). -/
def b64encode (bs : List Byte) : List Char := (sextets bs).map alphaChar

/-- TBUF[j] <- ascii code of encode(OBUF[0..OLEN-1])[j]; TLEN <- 4 * ceil(OLEN/3) (43_base64 R165). -/
def b64Op (s : State) : State :=
  (s.setMem (s.mem.writeBytes Config.tbufBase ((b64encode s.obufValid).map asciiCode))).setTlen
    (BitVec.ofNat 32 (4 * ((s.olen.toNat + 2) / 3)))

/-- B64 (43_base64 R165). -/
def execB64 (s : State) : Host.Outcome State Fault Refusal := .next (b64Op s)

end Sys2Proof.Machine
end

