-- ==== Sys2Proof/Machine/FieldCodec.lean ====
section
/-! DEFINITION. FieldCodec: the pure functions `pack` and `unpack` (40_fieldcodec R100 to R106) and the commands PACK and
UNPACK (R107, R108). -/

namespace Sys2Proof.Machine

/-- `off(i)`, the offset of field i in the packed buffer (40_fieldcodec R100). -/
def fieldOffset (i : Nat) : Nat := (Config.widths.take i).sum

/-- The `w` low bytes of `x`, most significant first (40_fieldcodec R101); higher bits are lost silently (R102). -/
def bigEndian (w x : Nat) : List Byte := (List.range w).map (fun k => BitVec.ofNat 8 (x >>> (8 * (w - 1 - k))))

/-- The big-endian unsigned number a byte sequence spells (40_fieldcodec R103). -/
def bigEndianValue (bs : List Byte) : Nat := bs.foldl (fun x b => x <<< 8 ||| b.toNat) 0

/-- `pack(v, W)`: the fields' big-endian encodings, in index order, with no gaps (40_fieldcodec R101; 20_memory R56). -/
def packFields (ws vs : List Nat) : List Byte := (ws.zip vs).flatMap (fun p => bigEndian p.1 p.2)

/-- `byte_at(buf, j)`: a byte at or beyond the end reads as 0 (40_fieldcodec R103, R104). -/
def byteAt (buf : List Byte) (j : Nat) : Byte := buf.getD j 0

/-- The fields of widths `ws` whose regions start at offset `off` (40_fieldcodec R103), each masked to 32 bits (R105). -/
def unpackFrom (ws : List Nat) (off : Nat) (buf : List Byte) : List Nat :=
  match ws with
  | [] => []
  | w :: rest =>
    (bigEndianValue ((List.range w).map (fun k => byteAt buf (off + k))) &&& 0xFFFFFFFF) :: unpackFrom rest (off + w) buf

/-- `unpack(buf, W)` (40_fieldcodec R103); bytes beyond the last region are ignored (R106). -/
def unpackFields (ws : List Nat) (buf : List Byte) : List Nat := unpackFrom ws 0 buf

theorem unpackFrom_length (ws : List Nat) (off : Nat) (buf : List Byte) : (unpackFrom ws off buf).length = ws.length := by
  induction ws generalizing off with
  | nil => rfl
  | cons w rest ih => simp [unpackFrom, ih]

/-- F[i] taken as v[i] (40_fieldcodec R107). -/
def fieldValues (f : Vector Word 18) : List Nat := f.toList.map BitVec.toNat

/-- The 18 values of an `unpack` as field registers (40_fieldcodec R108). -/
def fieldFileOf (buf : List Byte) : Vector Word 18 :=
  ⟨((unpackFields Config.widths buf).map (BitVec.ofNat 32)).toArray, by simp [unpackFields, unpackFrom_length, Config.widths]⟩

/-- PBUF[0..42] <- pack(F, W); PLEN <- 43 (40_fieldcodec R107). -/
def packOp (s : State) : State :=
  (s.setMem (s.mem.writeBytes Config.pbufBase (packFields Config.widths (fieldValues s.f)))).setPlen
    (BitVec.ofNat 32 Config.packedLen)

/-- F <- unpack(PBUF[0..PLEN-1], W) (40_fieldcodec R108). -/
def unpackOp (s : State) : State := s.setF (fieldFileOf s.pbufValid)

/-- PACK (40_fieldcodec R107). -/
def execPack (s : State) : Host.Outcome State Fault Refusal := .next (packOp s)

/-- UNPACK (40_fieldcodec R108). -/
def execUnpack (s : State) : Host.Outcome State Fault Refusal := .next (unpackOp s)

end Sys2Proof.Machine
end

