-- ==== Sys2Proof/Machine/WeakHash.lean ====
section
/-! DEFINITION. WeakHash: the pure functions H, hash8, hash32 over unbounded integers (41_weakhash R120, R121), the 32-bit
wrapping update of the hardware (R122, R125) and the commands HCLR, HUPD and HBUF. -/

namespace Sys2Proof.Machine

/-- One step of the recurrence on the unbounded accumulator: `(acc << 5) - acc + b` (41_weakhash R120). -/
def hashStep (acc : Nat) (b : Byte) : Nat := acc <<< 5 - acc + b.toNat

/-- `H(s)`, an unbounded integer (41_weakhash R120). -/
def hashH (bs : List Byte) : Nat := bs.foldl hashStep 0

/-- `hash8(s) = H(s) & 0xFF`, the seed key (41_weakhash R121). -/
def hash8 (bs : List Byte) : Byte := BitVec.ofNat 8 (hashH bs)

/-- `hash32(s) = H(s) & 0xFFFFFFFF`, the user-agent hash (41_weakhash R121). -/
def hash32 (bs : List Byte) : Word := BitVec.ofNat 32 (hashH bs)

/-- The accumulator's update: `(31 * HACC + b) mod 2^32` (41_weakhash R125). -/
def haccUpdate (acc : Word) (b : Nat) : Word := BitVec.ofNat 32 (Config.hashMul * acc.toNat + b)

/-- HCLR: HACC <- 0 (41_weakhash R124). -/
def execHclr (s : State) : Host.Outcome State Fault Refusal := .next (s.setHacc 0)

/-- HUPD b: HACC <- (31 * HACC + b) mod 2^32 (41_weakhash R125). -/
def execHupd (b : Nat) (s : State) : Host.Outcome State Fault Refusal := .next (s.setHacc (haccUpdate s.hacc b))

/-- HBUF: HACC <- hash32(PBUF[0..PLEN-1]) (41_weakhash R126). -/
def execHbuf (s : State) : Host.Outcome State Fault Refusal := .next (s.setHacc (hash32 s.pbufValid))

end Sys2Proof.Machine
end

