-- ==== Sys2Proof/Machine/Obfuscator.lean ====
section
/-! DEFINITION. StreamObfuscator: the key schedule and `obfuscate` (42_obfuscator R140 to R144), its inverse as a function
only (R148), and the command OBF (R149). -/

namespace Sys2Proof.Machine

/-- `keynext(k)`: the complement of the low 32 bits of `k * 131` (42_obfuscator R144). -/
def keyNext (k : Word) : Word := ~~~(BitVec.ofNat 32 (k.toNat * Config.keyMul))

/-- The key after `n` updates from `k` (42_obfuscator R143, R144). -/
def keyAfter (k : Word) (n : Nat) : Word :=
  match n with
  | 0 => k
  | n + 1 => keyAfter (keyNext k) n

/-- The payload: each byte XORed with the low 8 bits of the key, which is updated after every byte (42_obfuscator R140,
R143). -/
def xorStream (k : Word) (bs : List Byte) : List Byte :=
  match bs with
  | [] => []
  | b :: rest => (b ^^^ k.setWidth 8) :: xorStream (keyNext k) rest

/-- `obfuscate(src)`: the header `[3, key]`, then the payload (42_obfuscator R140 to R143). -/
def obfuscate (src : List Byte) : List Byte :=
  BitVec.ofNat 8 Config.hdrVersion :: hash8 src :: xorStream ((hash8 src).setWidth 32) src

/-- `deobfuscate(out)` (42_obfuscator R148); no command of the CORE performs it. -/
def deobfuscate (out : List Byte) : List Byte := xorStream ((out.getD 1 0).setWidth 32) (out.drop Config.hdrLen)

/-- OBF (42_obfuscator R149). HACC <- hash32 of the source, KEY <- the key after the last update, OBUF <- obfuscate of the
source, OLEN <- PLEN + 2. -/
def obfOp (s : State) : State :=
  let src := s.pbufValid
  ((((s.setHacc (hash32 src)).setKey (keyAfter ((hash8 src).setWidth 32) src.length)).setMem
    (s.mem.writeBytes Config.obufBase (obfuscate src))).setOlen (BitVec.ofNat 32 (s.plen.toNat + Config.hdrLen)))

/-- OBF (42_obfuscator R149). -/
def execObf (s : State) : Host.Outcome State Fault Refusal := .next (obfOp s)

end Sys2Proof.Machine
end

