-- ==== Sys2Proof/Machine/TokenState.lean ====
section
/-! DEFINITION. TokenState: the policy of the 18 fields and the pipeline; the commands NOP, INIT, REFRESH and EMIT
(44_tokenstate R180 to R183). -/

namespace Sys2Proof.Machine

/-- The field file of INIT: all fields 0, then fields 0, 3, 4, 5, 6, 13, 15, 16, 17 set, F[0] from the nonce and F[3] from
the user-agent hash (44_tokenstate R181). -/
def initFields (nonce uaHash : Word) : Vector Word 18 :=
  #v[nonce, 0, 0, uaHash, 0, BitVec.ofNat 32 Config.f5Const, 0, 0, 0, 0, 0, 0, 0, BitVec.ofNat 32 Config.f13Const, 0, 0, 0,
     BitVec.ofNat 32 Config.f17Const]

/-- `(F[16] + 1) mod 65536` (44_tokenstate R182). -/
def counterNext (c : Word) : Word := BitVec.ofNat 32 ((c.toNat + 1) % Config.ctrMod)

/-- The field file after a REFRESH: the refreshed subset from A[0..7], field 15 reset, the counter bumped, the other eight
fields as they were (44_tokenstate R182). -/
def refreshFields (f : Vector Word 18) (a : Vector Word 8) : Vector Word 18 :=
  #v[f[0], a[0], a[1], f[3], f[4], f[5], f[6], a[2], a[3], a[4], a[5], a[6], a[7], f[13], f[14], 0, counterNext f[16], f[17]]

/-- REFRESH as a change of state (44_tokenstate R182). -/
def refreshOp (s : State) : State := s.setF (refreshFields s.f s.a)

/-- NOP: nothing (44_tokenstate R180). -/
def execNop (s : State) : Host.Outcome State Fault Refusal := .next s

/-- INIT (44_tokenstate R181). -/
def execInit (s : State) : Host.Outcome State Fault Refusal := .next (s.setF (initFields s.a[0] s.hacc))

/-- REFRESH (44_tokenstate R182). -/
def execRefresh (s : State) : Host.Outcome State Fault Refusal := .next (refreshOp s)

/-- EMIT: REFRESH, PACK, OBF, B64 as one atomic step (44_tokenstate R183). -/
def execEmit (s : State) : Host.Outcome State Fault Refusal := .next (b64Op (obfOp (packOp (refreshOp s))))

end Sys2Proof.Machine
end

