-- ==== Sys2Proof/Machine/Dispatch.lean ====
section
/-! DEFINITION. What each command does: one arm per constructor of `Instr`, each one call of that command's own meaning. -/

namespace Sys2Proof.Machine

def exec (i : Instr) (s : State) : Host.Outcome State Fault Refusal :=
  match i with
  | .nop => Sys2Proof.Machine.execNop s
  | .init => Sys2Proof.Machine.execInit s
  | .refresh => Sys2Proof.Machine.execRefresh s
  | .pack => Sys2Proof.Machine.execPack s
  | .unpack => Sys2Proof.Machine.execUnpack s
  | .hclr => Sys2Proof.Machine.execHclr s
  | .hupd b => Sys2Proof.Machine.execHupd b s
  | .hbuf => Sys2Proof.Machine.execHbuf s
  | .obf => Sys2Proof.Machine.execObf s
  | .b64 => Sys2Proof.Machine.execB64 s
  | .emit => Sys2Proof.Machine.execEmit s

end Sys2Proof.Machine
end

