-- ==== Sys2Proof/Machine/Operands.lean ====
section
/-! DEFINITION. The register map of the host port (20_memory R51): which register a number names, its access rights, its
legal write data, its value and its write. Commands name registers implicitly; this is the one explicit operand form. -/

namespace Sys2Proof.Machine

/-- The rows of the register map (20_memory R51). -/
inductive Reg where
  | cmd | status | finfo | hacc | key | plen | olen | tlen
  | a (j : Fin 8)
  | f (i : Fin 18)
  | w (i : Fin 18)
  | pbuf (k : Fin 43)
  | obuf (k : Fin 45)
  | tbuf (k : Fin 60)
deriving DecidableEq, Repr

/-- The registers of the first eight numbers, in order (20_memory R51). -/
def plainRegs : List Reg := [.cmd, .status, .finfo, .hacc, .key, .plen, .olen, .tlen]

/-- Which element of a row of `count` registers from number `base` a number names, if any (20_memory R51). -/
def rowIndex (base count n : Nat) : Option (Fin count) :=
  if h : base ≤ n ∧ n - base < count then some ⟨n - base, h.2⟩ else none

/-- The register a number names, none where the number is unmapped (20_memory R51). -/
def regAt (n : Nat) : Option Reg :=
  plainRegs[n]?.or (((rowIndex 0x008 8 n).map Reg.a).or (((rowIndex 0x010 18 n).map Reg.f).or
    (((rowIndex 0x030 18 n).map Reg.w).or (((rowIndex Config.pbufBase 43 n).map Reg.pbuf).or
      (((rowIndex Config.obufBase 45 n).map Reg.obuf).or ((rowIndex Config.tbufBase 60 n).map Reg.tbuf))))))

/-- The register a host register number names; no width other than 32 bits exists (20_memory R50). -/
def regOf (n : Word) : Option Reg := regAt n.toNat

/-- The number of a register (20_memory R51). -/
def Reg.number : Reg → Nat
  | .cmd => 0
  | .status => 1
  | .finfo => 2
  | .hacc => 3
  | .key => 4
  | .plen => 5
  | .olen => 6
  | .tlen => 7
  | .a j => 0x008 + j
  | .f i => 0x010 + i
  | .w i => 0x030 + i
  | .pbuf k => Config.pbufBase + k
  | .obuf k => Config.obufBase + k
  | .tbuf k => Config.tbufBase + k

/-- The "R" of the access column (20_memory R51): everything but CMD. -/
def Reg.readable : Reg → Bool
  | .cmd => false
  | _ => true

/-- The "W" of the access column: not STATUS, FINFO, KEY, TLEN, any W[i] or any TBUF[k] (20_memory R53). -/
def Reg.writable : Reg → Bool
  | .status => false
  | .finfo => false
  | .key => false
  | .tlen => false
  | .w _ => false
  | .tbuf _ => false
  | _ => true

/-- The "legal write data" column (20_memory R51, R54, R55). -/
def Reg.legalData (r : Reg) (v : Word) : Bool :=
  match r with
  | .plen => decide (v.toNat ≤ 43)
  | .olen => decide (v.toNat ≤ 45)
  | .pbuf _ => decide (v.toNat ≤ 255)
  | .obuf _ => decide (v.toNat ≤ 255)
  | _ => true

/-- W[i], the width ROM (10_state R21). -/
def widthRom (i : Fin 18) : Nat := Config.widths.getD i 0

/-- `value(n)` of 20_memory R52: the 32-bit content, a byte register zero-extended. CMD holds no state and is never read. -/
def State.regValue (s : State) : Reg → Word
  | .cmd => 0
  | .status => s.status
  | .finfo => s.finfo
  | .hacc => s.hacc
  | .key => s.key
  | .plen => s.plen
  | .olen => s.olen
  | .tlen => s.tlen
  | .a j => s.a[j]
  | .f i => s.f[i]
  | .w i => BitVec.ofNat 32 (widthRom i)
  | .pbuf k => (s.mem.read (Config.pbufBase + k)).setWidth 32
  | .obuf k => (s.mem.read (Config.obufBase + k)).setWidth 32
  | .tbuf k => (s.mem.read (Config.tbufBase + k)).setWidth 32

/-- `register(n) <- v` of 20_memory R53, for the writable registers other than CMD; the others have no write. -/
def State.regWrite (r : Reg) (v : Word) (s : State) : State :=
  match r with
  | .hacc => s.setHacc v
  | .plen => s.setPlen v
  | .olen => s.setOlen v
  | .a j => s.setA (s.a.set j v)
  | .f i => s.setF (s.f.set i v)
  | .pbuf k => s.setMem (s.mem.write (Config.pbufBase + k) (v.setWidth 8))
  | .obuf k => s.setMem (s.mem.write (Config.obufBase + k) (v.setWidth 8))
  | .cmd => s
  | .status => s
  | .finfo => s
  | .key => s
  | .tlen => s
  | .w _ => s
  | .tbuf _ => s

end Sys2Proof.Machine
end

