-- ==== Sys2Proof/Machine/Port.lean ====
section
/-! DEFINITION. The host port: Execute(c), HostRead(n), HostWrite(n, v) (30_encoding R86; 20_memory R52, R53), the performance
of one host operation, and the construction of a machine from a width table (00_scope R8). -/

namespace Sys2Proof.Machine

/-- `Execute(c)`: decode the word and perform the command, or raise ILLEGAL_CMD with the word (30_encoding R86). -/
def executeWord (c : Word) (s : State) : Host.Outcome State Fault Refusal :=
  match Sys2Proof.decode c with
  | .ok i => exec i s
  | .error _ => .next (s.raise .illegalCmd c)

/-- `HostRead(n)` (20_memory R52), with the value it returns to the host delivered. In the halted state a mapped readable
register still reads, and anything else returns 0 and raises nothing; otherwise an unmapped number or CMD raises BAD_REG and
returns 0. -/
def hostRead (n : Word) (s : State) : State :=
  match regOf n with
  | some r => if r.readable then s.deliver (s.regValue r) else (s.raise .badReg n).deliver 0
  | none => (s.raise .badReg n).deliver 0

/-- `HostWrite(n, v)` (20_memory R53): discarded when halted; BAD_REG on an unmapped or unwritable register; a write to CMD
executes; BAD_VALUE on data outside the legal range; else the register is written. -/
def hostWrite (n v : Word) (s : State) : Host.Outcome State Fault Refusal :=
  if s.halted then .next s
  else match regOf n with
    | none => .next (s.raise .badReg n)
    | some r =>
      if r.writable then
        if r = .cmd then executeWord v s
        else if r.legalData v then .next (s.regWrite r v)
        else .next (s.raise .badValue n)
      else .next (s.raise .badReg n)

/-- Perform one host operation, to completion (20_memory R61). -/
def perform (op : HostOp) (s : State) : Host.Outcome State Fault Refusal :=
  match op with
  | .reset => .next s.resetCore
  | .read n => .next (hostRead n s)
  | .write n v => hostWrite n v s

/-- Perform a list of host operations in order, stopping at a stop (30_encoding R90: running a script). -/
def performAll (ops : List HostOp) (s : State) : Host.Outcome State Fault Refusal :=
  match ops with
  | [] => .next s
  | op :: rest =>
    match perform op s with
    | .next t => performAll rest t
    | .fault r => .fault r
    | .refused r => .refused r

/-- Construction with a width table as argument: refused for every table but the specified one (00_scope R8; 60_exceptions
R205). -/
def construct (table : List Nat) : Host.Outcome State Fault Refusal :=
  if Config.legalTable table then .next State.reset else .refused .configurationCorruption

end Sys2Proof.Machine
end

