-- ==== Sys2Proof/Machine/Step.lean ====
section
/-! DEFINITION. One step of the machine: the next host operation is performed, whole and atomic (20_memory R60, R61). -/

namespace Sys2Proof.Machine

/-- One step. With no operation pending the run has ended and the CORE "holds its state unchanged for any length of time"
(60_exceptions R218; log 2). -/
def step (s : State) : Host.Outcome State Fault Refusal :=
  match s.nextOp with
  | none => .next s
  | some (op, t) => perform op t

/-- `s` with the command word of bits `w` (bits at and above `nbits` zero) as the very next host operation, a write to CMD:
the CORE has no instruction memory, a command is executed at that write (20_memory R64; log 1). -/
def State.withFetchWord (s : State) (nbits w : Nat) : State :=
  { s with pending := .write 0 (BitVec.ofNat 32 (w % 2 ^ nbits)) :: s.pending }

end Sys2Proof.Machine
end

