-- ==== Sys2Proof/Machine/Script.lean ====
section
/-! DEFINITION. Scripts, the spec's notion of a program (30_encoding R88 to R91): their lines as host operations, the
pseudo-instructions, the bus encoding of a line, the host's two standard sequences (70_reset_and_hazards R232, R233), and the
interleaving of two hosts' scripts (20_memory R61). -/

namespace Sys2Proof.Machine

/-- A command line means `wr CMD, <word>` (30_encoding R88). -/
def cmdLine (i : Instr) : HostOp := .write (BitVec.ofNat 32 Reg.cmd.number) (encode i)

/-- `wr <reg>, <value>` (30_encoding R89). -/
def wrLine (r : Reg) (v : Word) : HostOp := .write (BitVec.ofNat 32 r.number) v

/-- `rd <reg>` (30_encoding R89). -/
def rdLine (r : Reg) : HostOp := .read (BitVec.ofNat 32 r.number)

/-- One `hupd` per byte, in order; for the bytes of an ASCII text this is `hstr` (30_encoding R91; 41_weakhash R130). -/
def hstrLines (bs : List Byte) : List HostOp := bs.map (fun b => cmdLine (.hupd b.toNat))

/-- `hash`: `hclr`, then `hstr` (30_encoding R91). -/
def hashLines (bs : List Byte) : List HostOp := cmdLine .hclr :: hstrLines bs

/-- `args`: the eight operands of REFRESH and EMIT into A[0] to A[7], in order (30_encoding R91). -/
def argsLines (v : Vector Word 8) : List HostOp :=
  [wrLine (.a 0) v[0], wrLine (.a 1) v[1], wrLine (.a 2) v[2], wrLine (.a 3) v[3],
   wrLine (.a 4) v[4], wrLine (.a 5) v[5], wrLine (.a 6) v[6], wrLine (.a 7) v[7]]

/-- `token`: read TBUF[0] to TBUF[59] (30_encoding R91). -/
def tokenLines : List HostOp := (List.range Config.tokenLen).map (fun k => .read (BitVec.ofNat 32 (Config.tbufBase + k)))

/-- The boot sequence for user-agent bytes `u` and nonce `z`, after its `reset` line (70_reset_and_hazards R232). -/
def bootLines (u : List Byte) (z : Word) : List HostOp := hashLines u ++ [wrLine (.a 0) z, cmdLine .init]

/-- The per-emission sequence for the eight operands `v` (70_reset_and_hazards R233). -/
def emissionLines (v : Vector Word 8) : List HostOp := argsLines v ++ cmdLine .emit :: tokenLines

/-- The byte of an ASCII character (41_weakhash R127; 30_encoding R91: `hstr` is for text of ASCII characters only). -/
def asciiByte (c : Char) : Option Byte := if c.toNat < 128 then some (BitVec.ofNat 8 c.toNat) else none

/-- The kinds of bus operation (30_encoding R90). -/
inductive BusKind where
  | reset | read | write
deriving DecidableEq, Repr

/-- A line's encoding: the triple (kind, register number, data) (30_encoding R90). -/
structure BusOp where
  kind : BusKind
  reg : Word
  data : Word
deriving DecidableEq, Repr

/-- The encoding of a line (30_encoding R90); what the kind does not use is 0 (log 14). -/
def HostOp.toBus : HostOp → BusOp
  | .reset => ⟨.reset, 0, 0⟩
  | .read n => ⟨.read, n, 0⟩
  | .write n v => ⟨.write, n, v⟩

/-- The operation a triple stands for; what the kind does not use is ignored (log 14). -/
def BusOp.toOp (b : BusOp) : HostOp :=
  match b.kind with
  | .reset => .reset
  | .read => .read b.reg
  | .write => .write b.reg b.data

/-- `zs` is an interleaving of whole operations of two hosts' scripts; which host goes first is not specified, so every
interleaving is admitted (20_memory R61; 93_implementation_defined U8, S7). -/
inductive Interleaving : List HostOp → List HostOp → List HostOp → Prop where
  | none : Interleaving [] [] []
  | left (op : HostOp) (xs ys zs : List HostOp) : Interleaving xs ys zs → Interleaving (op :: xs) ys (op :: zs)
  | right (op : HostOp) (xs ys zs : List HostOp) : Interleaving xs ys zs → Interleaving xs (op :: ys) (op :: zs)

end Sys2Proof.Machine
end

