-- ==== Sys2Proof/Machine/Assembler.lean ====
section
/-! DEFINITION. The text of a script (30_encoding R88, R89, R91): one operation per line, `;` starts a comment, mnemonics and
register names without regard to case, numbers decimal or `0x` hexadecimal. What text is no line is log 13. -/

namespace Sys2Proof.Machine

/-- A line without its comment; a `;` inside a quoted text starts none. -/
def stripComment (quoted : Bool) (cs : List Char) : List Char :=
  match cs with
  | [] => []
  | c :: rest =>
    if c = '"' then c :: stripComment (!quoted) rest
    else if c = ';' && !quoted then []
    else c :: stripComment quoted rest

/-- Blank and tab separate words. -/
def isBlankChar (c : Char) : Bool := c = ' ' || c = '\t' || c = '\r'

/-- Without blanks at either end. -/
def trimBlanks (cs : List Char) : List Char := ((cs.dropWhile isBlankChar).reverse.dropWhile isBlankChar).reverse

/-- The pieces between commas, each trimmed. -/
def splitCommas (acc cs : List Char) : List (List Char) :=
  match cs with
  | [] => [trimBlanks acc.reverse]
  | c :: rest => if c = ',' then trimBlanks acc.reverse :: splitCommas [] rest else splitCommas (c :: acc) rest

/-- The value of a digit. -/
def digitValue (c : Char) : Option Nat :=
  if '0' ≤ c ∧ c ≤ '9' then some (c.toNat - '0'.toNat)
  else if 'a' ≤ c.toLower ∧ c.toLower ≤ 'f' then some (c.toLower.toNat - 'a'.toNat + 10)
  else none

/-- A digit string in a base, most significant digit first. -/
def parseDigits (base acc : Nat) (cs : List Char) : Option Nat :=
  match cs with
  | [] => some acc
  | c :: rest =>
    match digitValue c with
    | none => none
    | some d => if d < base then parseDigits base (acc * base + d) rest else none

/-- A number, decimal or `0x` hexadecimal (30_encoding R88). DESIGN CHOICE (log 13), on which R88 is silent: the prefix may also be
`0X`, a hexadecimal digit may be of either case, leading zeros are allowed, and a prefix without a digit is no number. -/
def parseNumber (cs : List Char) : Option Nat :=
  match cs with
  | [] => none
  | ['0', 'x'] => none
  | ['0', 'X'] => none
  | '0' :: 'x' :: ds => parseDigits 16 0 ds
  | '0' :: 'X' :: ds => parseDigits 16 0 ds
  | ds => parseDigits 10 0 ds

/-- A number that is a 32-bit datum (20_memory R50). -/
def parseWord (cs : List Char) : Option Word :=
  match parseNumber cs with
  | none => none
  | some n => if n < 2 ^ 32 then some (BitVec.ofNat 32 n) else none

/-- The register names without an index (30_encoding R88; 20_memory R51). -/
def plainNames : List (String × Reg) :=
  [("cmd", .cmd), ("status", .status), ("finfo", .finfo), ("hacc", .hacc), ("key", .key), ("plen", .plen), ("olen", .olen),
   ("tlen", .tlen)]

/-- The register names with an index: the number of element 0 and the number of elements (30_encoding R88; 20_memory R51). -/
def indexedNames : List (String × (Nat × Nat)) :=
  [("a", (0x008, 8)), ("f", (0x010, 18)), ("w", (0x030, 18)), ("pbuf", (Config.pbufBase, 43)), ("obuf", (Config.obufBase, 45)),
   ("tbuf", (Config.tbufBase, 60))]

/-- Look a name up, without regard to case. -/
def lookupName {α : Type} (table : List (String × α)) (cs : List Char) : Option α :=
  (table.find? (fun e => e.1.toList == cs.map Char.toLower)).map Prod.snd

/-- A register: a name, a name with its index in brackets, or a raw register number (30_encoding R88, R89). -/
def parseReg (cs : List Char) : Option Word :=
  match parseWord cs with
  | some n => some n
  | none =>
    match lookupName plainNames cs with
    | some r => some (BitVec.ofNat 32 r.number)
    | none =>
      match lookupName indexedNames (cs.takeWhile (· ≠ '[')), (cs.dropWhile (· ≠ '[')).drop 1 with
      | some (base, count), tail =>
        if tail.getLast? = some ']' then
          match parseNumber tail.dropLast with
          | some i => if i < count then some (BitVec.ofNat 32 (base + i)) else none
          | none => none
        else none
      | none, _ => none

/-- The commands without an operand. -/
def plainCommands : List Instr := [.nop, .init, .refresh, .pack, .unpack, .hclr, .hbuf, .obf, .b64, .emit]

/-- A quoted text as ASCII bytes (30_encoding R91). -/
def parseText (cs : List Char) : Option (List Byte) :=
  match cs with
  | '"' :: rest =>
    if rest.getLast? = some '"' ∧ '"' ∉ rest.dropLast then rest.dropLast.mapM asciiByte else none
  | _ => none

/-- The eight operands of `args` (30_encoding R91). -/
def parseArgs (cs : List Char) : Option (Vector Word 8) :=
  match (splitCommas [] cs).map parseWord with
  | [some v0, some v1, some v2, some v3, some v4, some v5, some v6, some v7] => some #v[v0, v1, v2, v3, v4, v5, v6, v7]
  | _ => none

/-- The host operations of one line of text, none where the text is no line (30_encoding R88, R89, R91; log 13). -/
def assembleLine (line : List Char) : Option (List HostOp) :=
  let body := trimBlanks (stripComment false line)
  let word := (body.takeWhile (fun c => !isBlankChar c)).map Char.toLower
  let rest := trimBlanks (body.dropWhile (fun c => !isBlankChar c))
  if word = [] then some []
  else if word = "rd".toList then (parseReg rest).map (fun n => [.read n])
  else if word = "wr".toList then
    match splitCommas [] rest with
    | [r, v] =>
      match parseReg r, parseWord v with
      | some n, some x => some [.write n x]
      | _, _ => none
    | _ => none
  else if word = "hupd".toList then
    match parseNumber rest with
    | some b => if b < 256 then some [cmdLine (.hupd b)] else none
    | none => none
  else if word = "hstr".toList then (parseText rest).map hstrLines
  else if word = "hash".toList then (parseText rest).map hashLines
  else if word = "args".toList then (parseArgs rest).map argsLines
  else if rest ≠ [] then none
  else if word = "reset".toList then some [.reset]
  else if word = "token".toList then some tokenLines
  else (plainCommands.find? (fun i => i.mnemonic.toList.map Char.toLower == word)).map (fun i => [cmdLine i])

/-- The host operations of a script, none where one of its lines is no line. -/
def assemble (lines : List (List Char)) : Option (List HostOp) :=
  match lines with
  | [] => some []
  | line :: rest =>
    match assembleLine line, assemble rest with
    | some ops, some more => some (ops ++ more)
    | _, _ => none

end Sys2Proof.Machine
end

