-- ==== Sys2Proof/Machine/System.lean ====
section
/-! DEFINITION. Several independent COREs side by side, each with its own state and its own port (60_exceptions R215;
00_scope R7 NINSTANCES, OPEN: the length of the list). -/

namespace Sys2Proof.Machine

/-- CORE `k` of a system takes a step; no other CORE is observed or changed (60_exceptions R215). A number that names no CORE
changes nothing. -/
def systemStep (k : Nat) (cores : List State) : Host.Outcome (List State) Fault Refusal :=
  match cores[k]? with
  | none => .next cores
  | some s =>
    match step s with
    | .next t => .next (cores.set k t)
    | .fault r => .fault r
    | .refused r => .refused r

end Sys2Proof.Machine
end

