-- ==== Sys2Proof/Safety.lean ====
section
/-! DEFINITION. The terms in which claims speak of runs: the machine's invariant, the hardware part of a state, the end of a
run, and the host's duties (70_reset_and_hazards R237). -/

namespace Sys2Proof.Machine

/-- The hardware part of a state: the host's side of the port blanked. -/
def State.coreOf (s : State) : State := { s with pending := [], pc := 0, delivered := [] }

/-- A register number lies in one of the three buffers (20_memory R51). -/
abbrev inBuffer (a : Nat) : Prop :=
  (Config.pbufBase ≤ a ∧ a < Config.pbufBase + Config.packedLen) ∨
  (Config.obufBase ≤ a ∧ a < Config.obufBase + Config.obfLen) ∨
  (Config.tbufBase ≤ a ∧ a < Config.tbufBase + Config.tokenLen)

/-- What FINFO holds beside each FCODE (10_state R28, R29; 60_exceptions R200): 0 without a fault, an illegal word, the number of a
register the map forbids some access to, the number of a range-checked register. -/
def faultInfoFits (code : Byte) (info : Word) : Bool :=
  if code = 0 then info == 0
  else if code = 1 then match Sys2Proof.decode info with
    | .ok _ => false
    | .error _ => true
  else if code = 2 then match regOf info with
    | some r => !(r.readable && r.writable)
    | none => true
  else if code = 3 then match regOf info with
    | some .plen => true
    | some .olen => true
    | some (.pbuf _) => true
    | some (.obuf _) => true
    | _ => false
  else false

/-- The invariant of the machine. -/
structure State.Inv (s : State) : Prop where
  /-- PLEN in 0 to 43 (10_state R27). -/
  plen_le : s.plen.toNat ≤ 43
  /-- OLEN in 0 to 45 (10_state R27). -/
  olen_le : s.olen.toNat ≤ 45
  /-- TLEN in 0 to 60 (10_state R27). -/
  tlen_le : s.tlen.toNat ≤ 60
  /-- TLEN is a multiple of 4 (43_base64 R163). -/
  tlen_mod : s.tlen.toNat % 4 = 0
  /-- FCODE and FINFO belong together; FCODE 4 to 255 never occur (10_state R28, R29). -/
  fault_fits : faultInfoFits s.fcode s.finfo = true
  /-- The buffers are in canonical form. -/
  mem_wf : s.mem.wf = true
  /-- No byte is held outside the three buffers. -/
  mem_inBuffer : ∀ c ∈ s.mem, inBuffer c.1
  /-- Every valid token byte is the code of an alphabet character (10_state R33; 43_base64 R163). -/
  token_chars : ∀ k < s.tlen.toNat, ∃ c ∈ alphabet, s.mem.read (Config.tbufBase + k) = asciiCode c

/-- A run "ends when the last line has been performed", and "ends well if FCODE = 0 at that point" (70_reset_and_hazards
R243). -/
def State.endsWell (s : State) : Bool := s.pending.isEmpty && !s.halted

/-- The ranges of the draws, bounds included, a host duty the hardware does not check (44_tokenstate R184). -/
def operandsInRange (a : Vector Word 8) : Bool :=
  decide (a[2].toNat ≤ 10000) && decide (a[3].toNat ≤ 10000) && decide (a[4].toNat ≤ 10000) && decide (a[5].toNat ≤ 10000) &&
  decide (a[6].toNat ≤ 1920) && decide (a[7].toNat ≤ 1080)

/-- Every field register fits its width (40_fieldcodec R111). -/
def fieldsFit (f : Vector Word 18) : Bool :=
  (Config.widths.zip (fieldValues f)).all (fun p => decide (p.2 < 2 ^ (8 * p.1)))

/-- The host's duty "never writes an illegal word, an unmapped or read-only register, or an out-of-range value" and its
liberty to read any mapped readable register (70_reset_and_hazards R237). -/
def HostOp.keepsPortDuty : HostOp → Bool
  | .reset => true
  | .read n => match regOf n with
    | some r => r.readable
    | none => false
  | .write n v => match regOf n with
    | some .cmd => match Sys2Proof.decode v with
      | .ok _ => true
      | .error _ => false
    | some r => r.writable && r.legalData v
    | none => false

end Sys2Proof.Machine
end

