-- ==== Sys2Proof/Certificates/Slice0/Obligations.lean ====
section
/-! DEFINITION. The statements about the CORE for the provers. A frame is written `t = { s with … := t.… }`: every field of the
state but those named is as it was (PBUF, OBUF and TBUF are the field `mem`, whose bytes are then read one by one). -/

open Sys2Proof Sys2Proof.Machine

/-- 10_state R38: the value of every register and buffer byte after a reset, taken from any state, the halted one too. -/
def Obligations.ResetLeavesTheTabledValues : Prop :=
  ∀ s : State, ∃ t, perform .reset s = .next t ∧
    (∀ i : Fin 18, t.f[i] = 0) ∧ (∀ j : Fin 8, t.a[j] = 0) ∧ t.hacc = 0 ∧ t.key = 0 ∧
    t.plen = 0 ∧ t.olen = 0 ∧ t.tlen = 0 ∧ t.fcode = 0 ∧ t.finfo = 0 ∧ (∀ a, t.mem.read a = 0) ∧
    (List.finRange 18).map (fun i => t.regValue (.w i)) = [4, 4, 4, 4, 1, 1, 1, 3, 2, 2, 2, 2, 2, 2, 2, 4, 2, 1]

/-- 60_exceptions R211: nothing but reset clears or changes a recorded fault; a further offending access is discarded or returns
0 and records nothing. -/
def Obligations.OnlyResetClearsAFault : Prop :=
  (∀ (s : State) (op : HostOp), s.fcode ≠ 0 → op ≠ .reset →
    ∃ t, perform op s = .next t ∧ t.fcode = s.fcode ∧ t.finfo = s.finfo ∧
      (op.keepsPortDuty = false → (∃ n v, op = .write n v) ∧ t = s ∨
        (∃ n, op = .read n) ∧ t = { s with delivered := s.delivered ++ [0] })) ∧
  (∀ s : State, ∃ t, perform .reset s = .next t ∧ t.fcode = 0 ∧ t.finfo = 0) ∧
  (∀ (i : Instr) (s : State), ∃ t, exec i s = .next t ∧ t.fcode = s.fcode ∧ t.finfo = s.finfo)

/-- 60_exceptions R209: the halted state discards every write, serves reads of mapped readable registers, answers 0 to the
others, records nothing, only reset leaves it, and no run that ends in it has ended well. -/
def Obligations.HaltedStateFreezesTheCore : Prop :=
  ∀ s : State, s.fcode ≠ 0 →
    (∀ n v, perform (.write n v) s = .next s) ∧
    (∀ n r, regOf n = some r → n ≠ 0 → perform (.read n) s = .next { s with delivered := s.delivered ++ [s.regValue r] }) ∧
    (∀ n, regOf n = none ∨ n = 0 → perform (.read n) s = .next { s with delivered := s.delivered ++ [0] }) ∧
    (∃ t, perform .reset s = .next t ∧ t.fcode = 0) ∧ s.endsWell = false

/-- From 60_exceptions R209: a script without a reset leaves the hardware of a halted CORE as it was, however long it is. -/
def Obligations.HaltedCoreStaysFrozenAlongScripts : Prop :=
  ∀ (ops : List HostOp) (s : State), s.fcode ≠ 0 → HostOp.reset ∉ ops →
    ∃ t, performAll ops s = .next t ∧ t.coreOf = s.coreOf

/-- 30_encoding R85: a word is one of the 266 legal words or writing it to CMD raises ILLEGAL_CMD and performs nothing; the
illegal words are those with a bit above 15, with an opcode above 0x0A, or with a stray immediate. -/
def Obligations.IllegalWordsFault : Prop :=
  ∃ legal : List Word, legal.Nodup ∧ legal.length = 266 ∧
    (∀ c : Word, c ∉ legal ↔
      c.toNat / 65536 ≠ 0 ∨ 0x0A < c.toNat % 256 ∨ (c.toNat % 256 ≠ 0x06 ∧ c.toNat / 256 % 256 ≠ 0)) ∧
    (∀ (c : Word) (s : State), c ∉ legal → s.fcode = 0 → perform (.write 0 c) s = .next { s with fcode := 1, finfo := c }) ∧
    (∀ (c : Word) (s : State), c ∈ legal → s.fcode = 0 → ∃ i, decode c = .ok i ∧ perform (.write 0 c) s = exec i s)

/-- From 30_encoding R86 and spec/opcode_table.json: a word decodes exactly when it matches a row of the table, to the command
that row names, and no word matches two rows. -/
def Obligations.DecodeAgreesWithTheOpcodeTable : Prop :=
  (∀ c, (∃ i, decode c = .ok i) ↔ ∃ r ∈ opcodeTable, r.matchesWord c = true) ∧
  (∀ c i, decode c = .ok i → ∃ r ∈ opcodeTable, r.matchesWord c = true ∧ r.name = i.mnemonic) ∧
  opcodeTable.Pairwise (fun r r' => ∀ c, ¬(r.matchesWord c = true ∧ r'.matchesWord c = true))

/-- From 30_encoding R81 to R86: decoding the word of a well-formed command gives that command back, its immediate whole. -/
def Obligations.DecodeOfEncodeIsTheCommand : Prop :=
  ∀ i : Instr, i.wellFormed = true → decode (encode i) = .ok i

/-- From 30_encoding R84 to R86: a legal word is the word of the command it decodes to, and that command is well-formed; so no
bit of a word is ignored. -/
def Obligations.EncodeOfDecodeIsTheWord : Prop :=
  ∀ (c : Word) (i : Instr), decode c = .ok i → encode i = c ∧ i.wellFormed = true

/-- From 30_encoding R84: the eleven words of the opcode map, written out, decode to the commands they stand for. -/
def Obligations.TheElevenWordsDecode : Prop :=
  [0x00000000, 0x00000001, 0x00000002, 0x00000003, 0x00000004, 0x00000005, 0x00005806, 0x00000007, 0x00000008, 0x00000009,
    0x0000000A].map (fun c => (decode c).toOption) =
  [some .nop, some .init, some .refresh, some .pack, some .unpack, some .hclr, some (.hupd 0x58), some .hbuf, some .obf,
    some .b64, some .emit]

/-- A step whose next operation writes a legal word to CMD is `exec` of the decoded command, after the line is taken from
`pending` and the model's pc advanced (30_encoding R86; 20_memory R64; `pending` and `pc` are the model's, log 1). -/
def Obligations.StepRunsTheDecodedCommand : Prop :=
  ∀ (s : State) (c : Word) (rest : List HostOp) (i : Instr),
    s.pending = .write 0 c :: rest → s.fcode = 0 → decode c = .ok i →
    step s = exec i { s with pending := rest, pc := s.pc + 1 }

/-- A step performs the next host operation, whole, and nothing else (20_memory R61); with none left it changes nothing
(60_exceptions R218). `pending` and `pc` are the model's choice, log 1 and log 2. -/
def Obligations.StepPerformsOneHostOperation : Prop :=
  (∀ (s : State) (op : HostOp) (rest : List HostOp), s.pending = op :: rest →
    step s = perform op { s with pending := rest, pc := s.pc + 1 }) ∧
  (∀ s : State, s.pending = [] → step s = .next s)

/-- 20_memory R52 (with R51's map): what a host read of each register number returns and changes, halted or not. -/
def Obligations.HostReadFollowsTheMap : Prop :=
  ∀ (s : State) (n : Word),
    let back (v : Word) : Host.Outcome State Fault Refusal := .next { s with delivered := s.delivered ++ [v] }
    (n = 1 → perform (.read n) s = back (s.fcode.setWidth 32)) ∧
    (n = 2 → perform (.read n) s = back s.finfo) ∧ (n = 3 → perform (.read n) s = back s.hacc) ∧
    (n = 4 → perform (.read n) s = back s.key) ∧ (n = 5 → perform (.read n) s = back s.plen) ∧
    (n = 6 → perform (.read n) s = back s.olen) ∧ (n = 7 → perform (.read n) s = back s.tlen) ∧
    (∀ j : Fin 8, n.toNat = 8 + j → perform (.read n) s = back s.a[j]) ∧
    (∀ i : Fin 18, n.toNat = 16 + i → perform (.read n) s = back s.f[i]) ∧
    (∀ i : Fin 18, n.toNat = 48 + i →
      perform (.read n) s = back (BitVec.ofNat 32 ([4, 4, 4, 4, 1, 1, 1, 3, 2, 2, 2, 2, 2, 2, 2, 4, 2, 1].getD i 0))) ∧
    ((256 ≤ n.toNat ∧ n.toNat ≤ 298) ∨ (320 ≤ n.toNat ∧ n.toNat ≤ 364) ∨ (384 ≤ n.toNat ∧ n.toNat ≤ 443) →
      perform (.read n) s = back ((s.mem.read n.toNat).setWidth 32)) ∧
    (n = 0 ∨ (34 ≤ n.toNat ∧ n.toNat ≤ 47) ∨ (66 ≤ n.toNat ∧ n.toNat ≤ 255) ∨ (299 ≤ n.toNat ∧ n.toNat ≤ 319) ∨
        (365 ≤ n.toNat ∧ n.toNat ≤ 383) ∨ 444 ≤ n.toNat →
      (s.fcode ≠ 0 → perform (.read n) s = back 0) ∧
      (s.fcode = 0 → perform (.read n) s = .next { s with fcode := 2, finfo := n, delivered := s.delivered ++ [0] }))

/-- 20_memory R53 (with R51's map): what a host write to each register number does; a write to any register other than CMD
changes that register and nothing else, and a halted CORE discards it. -/
def Obligations.HostWriteFollowsTheMap : Prop :=
  ∀ (s : State) (n v : Word),
    (s.fcode ≠ 0 → perform (.write n v) s = .next s) ∧
    (s.fcode = 0 →
      (n = 0 → ∀ i, decode v = .ok i → perform (.write n v) s = exec i s) ∧
      (n = 0 → ∀ e, decode v = .error e → perform (.write n v) s = .next { s with fcode := 1, finfo := v }) ∧
      (n = 3 → perform (.write n v) s = .next { s with hacc := v }) ∧
      (n = 5 → v.toNat ≤ 43 → perform (.write n v) s = .next { s with plen := v }) ∧
      (n = 6 → v.toNat ≤ 45 → perform (.write n v) s = .next { s with olen := v }) ∧
      (∀ j : Fin 8, n.toNat = 8 + j → perform (.write n v) s = .next { s with a := s.a.set j v }) ∧
      (∀ i : Fin 18, n.toNat = 16 + i → perform (.write n v) s = .next { s with f := s.f.set i v }) ∧
      ((256 ≤ n.toNat ∧ n.toNat ≤ 298) ∨ (320 ≤ n.toNat ∧ n.toNat ≤ 364) → v.toNat ≤ 255 →
        ∃ t, perform (.write n v) s = .next t ∧ t = { s with mem := t.mem } ∧ (t.mem.read n.toNat).toNat = v.toNat ∧
          ∀ a, a ≠ n.toNat → t.mem.read a = s.mem.read a) ∧
      ((n = 5 ∧ 43 < v.toNat) ∨ (n = 6 ∧ 45 < v.toNat) ∨
          (((256 ≤ n.toNat ∧ n.toNat ≤ 298) ∨ (320 ≤ n.toNat ∧ n.toNat ≤ 364)) ∧ 255 < v.toNat) →
        perform (.write n v) s = .next { s with fcode := 3, finfo := n }) ∧
      (n = 1 ∨ n = 2 ∨ n = 4 ∨ n = 7 ∨ (34 ≤ n.toNat ∧ n.toNat ≤ 255) ∨ (299 ≤ n.toNat ∧ n.toNat ≤ 319) ∨
          365 ≤ n.toNat →
        perform (.write n v) s = .next { s with fcode := 2, finfo := n }))

/-- From 20_memory R52, R53: after a legal write to a register other than CMD, reading it returns the datum, and every other
register still reads as before. -/
def Obligations.WriteThenReadReturnsTheDatum : Prop :=
  ∀ (s : State) (n v : Word) (r : Reg), s.fcode = 0 → regOf n = some r → r ≠ .cmd → r.writable = true →
    r.legalData v = true →
    ∃ t, perform (.write n v) s = .next t ∧
      perform (.read n) t = .next { t with delivered := t.delivered ++ [v] } ∧
      ∀ r' : Reg, r' ≠ r → t.regValue r' = s.regValue r'

/-- From 60_exceptions R200 and 70_reset_and_hazards R237: an operation on a CORE that is not halted halts it exactly when it
breaks the host's duty at the port. -/
def Obligations.FaultsExactlyWhenThePortDutyIsBroken : Prop :=
  ∀ (s : State) (op : HostOp), s.fcode = 0 →
    ∃ t, perform op s = .next t ∧ (t.fcode ≠ 0 ↔ op.keepsPortDuty = false)

/-- 60_exceptions R208: fault entry writes FCODE and FINFO and nothing else (`delivered` is the host's: a faulting read gets 0),
with the code and the information word of R200. -/
def Obligations.FaultEntryWritesOnlyFcodeAndFinfo : Prop :=
  ∀ (s t : State) (op : HostOp), s.fcode = 0 → perform op s = .next t → t.fcode ≠ 0 →
    t = { s with fcode := t.fcode, finfo := t.finfo, delivered := t.delivered } ∧
    ((t.fcode = 1 ∧ op = .write 0 t.finfo) ∨
     (t.fcode = 2 ∧ (op = .read t.finfo ∨ ∃ v, op = .write t.finfo v)) ∨
     (t.fcode = 3 ∧ ∃ v, op = .write t.finfo v))

/-- 44_tokenstate R180: NOP, the all-zero word, changes no state at all, and is discarded when halted. -/
def Obligations.NopChangesNothing : Prop :=
  (∀ s : State, exec .nop s = .next s) ∧ encode .nop = 0x00000000 ∧ (∀ s : State, perform (.write 0 0x00000000) s = .next s)

/-- 44_tokenstate R181: the field file after INIT, field by field, and INIT's frame. -/
def Obligations.InitSetsTheFieldFile : Prop :=
  encode .init = 0x00000001 ∧
  ∀ s : State, ∃ t, exec .init s = .next t ∧ t = { s with f := t.f } ∧
    t.f[0] = s.a[0] ∧ t.f[3] = s.hacc ∧ t.f[5] = 11 ∧ t.f[13] = 2848 ∧ t.f[17] = 3 ∧
    ∀ i : Fin 18, (i : Nat) ∉ [0, 3, 5, 13, 17] → t.f[i] = 0

/-- 44_tokenstate R182: the refreshed subset after REFRESH, the counter mod 65536 whatever it held, and REFRESH's frame. -/
def Obligations.RefreshMutatesTheSubset : Prop :=
  encode .refresh = 0x00000002 ∧
  ∀ s : State, ∃ t, exec .refresh s = .next t ∧ t = { s with f := t.f } ∧
    t.f[1] = s.a[0] ∧ t.f[2] = s.a[1] ∧ t.f[7] = s.a[2] ∧ t.f[8] = s.a[3] ∧ t.f[9] = s.a[4] ∧ t.f[10] = s.a[5] ∧
    t.f[11] = s.a[6] ∧ t.f[12] = s.a[7] ∧ t.f[15] = 0 ∧ t.f[16].toNat = (s.f[16].toNat + 1) % 65536 ∧
    ∀ i : Fin 18, (i : Nat) ∉ [1, 2, 7, 8, 9, 10, 11, 12, 15, 16] → t.f[i] = s.f[i]

/-- From 40_fieldcodec R100: the offset table, and the regions cover the 43 bytes with no gap and no overlap. -/
def Obligations.FieldRegionsTileThePackedBuffer : Prop :=
  (List.range 18).map fieldOffset = [0, 4, 8, 12, 16, 17, 18, 19, 22, 24, 26, 28, 30, 32, 34, 36, 40, 42] ∧
  (List.range 18).map (fun i => fieldOffset i + Config.widths.getD i 0 - 1) =
    [3, 7, 11, 15, 16, 17, 18, 21, 23, 25, 27, 29, 31, 33, 35, 39, 41, 42] ∧
  ∀ j < 43, ∃! p : Fin 18 × Fin 4, (p.2 : Nat) < widthRom p.1 ∧ fieldOffset p.1 + p.2 = j

/-- 40_fieldcodec R107 with R101: PACK writes byte k of field i, most significant first, at offset off(i) + k; PLEN becomes 43;
no other byte and no other register changes. -/
def Obligations.PackWritesEveryFieldBigEndian : Prop :=
  encode .pack = 0x00000003 ∧
  ∀ s : State, ∃ t, exec .pack s = .next t ∧ t = { s with mem := t.mem, plen := 43 } ∧
    (∀ (i : Fin 18) (k : Nat), k < widthRom i →
      (t.mem.read (256 + (fieldOffset i + k))).toNat = s.f[i].toNat / 256 ^ (widthRom i - 1 - k) % 256) ∧
    ∀ a, a < 256 ∨ 298 < a → t.mem.read a = s.mem.read a

/-- From 40_fieldcodec R108, R103, R104: UNPACK reads each field big-endian at its own offset over exactly its width, a byte at
or beyond PLEN as 0 whatever PBUF holds there; nothing but F changes. That a cut field keeps its present bytes in place, its most
significant ones, is the spec's own reading (R104: "This spec reads that sentence by position"), log 11. -/
def Obligations.UnpackReadsEveryFieldBigEndian : Prop :=
  encode .unpack = 0x00000004 ∧
  ∀ s : State, ∃ t, exec .unpack s = .next t ∧ t = { s with f := t.f } ∧
    ∀ i : Fin 18, t.f[i].toNat =
      ∑ k ∈ Finset.range (widthRom i),
        (if fieldOffset i + k < s.plen.toNat then (s.mem.read (256 + (fieldOffset i + k))).toNat else 0) *
          256 ^ (widthRom i - 1 - k)

/-- 40_fieldcodec R102: pack never sees a bit above a field's width, and gives 43 bytes for any 18 values. -/
def Obligations.PackTruncatesToTheWidths : Prop :=
  ∀ v v' : List Nat, v.length = 18 → v'.length = 18 →
    (∀ i < 18, v'.getD i 0 % 2 ^ (8 * Config.widths.getD i 0) = v.getD i 0 % 2 ^ (8 * Config.widths.getD i 0)) →
    packFields Config.widths v = packFields Config.widths v' ∧ (packFields Config.widths v).length = 43

/-- From 40_fieldcodec R109, as derived there: the round trip in both directions, short buffers filled with zero bytes (that last
clause rests on the reading of R104, log 11). -/
def Obligations.CodecRoundTrips : Prop :=
  (∀ v : List Nat, v.length = 18 → ∀ i < 18,
    (unpackFields Config.widths (packFields Config.widths v)).getD i 0 = v.getD i 0 % 2 ^ (8 * Config.widths.getD i 0)) ∧
  (∀ buf : List Byte, buf.length = 43 → packFields Config.widths (unpackFields Config.widths buf) = buf) ∧
  (∀ buf : List Byte, buf.length < 43 →
    packFields Config.widths (unpackFields Config.widths buf) = buf ++ List.replicate (43 - buf.length) 0)

/-- From 40_fieldcodec R111, as derived there: PACK then UNPACK reduces every field to its width; UNPACK then PACK, with PLEN 43, leaves PBUF as it was;
where every field fits, PACK then UNPACK is the identity on F. -/
def Obligations.PackAndUnpackCommandsRoundTrip : Prop :=
  (∀ s : State, ∃ t u, exec .pack s = .next t ∧ exec .unpack t = .next u ∧
    (∀ i : Fin 18, u.f[i].toNat = s.f[i].toNat % 2 ^ (8 * widthRom i)) ∧ (fieldsFit s.f = true → u.f = s.f)) ∧
  (∀ s : State, s.plen = 43 → ∃ t u, exec .unpack s = .next t ∧ exec .pack t = .next u ∧
    ∀ a, u.mem.read a = s.mem.read a)

/-- 41_weakhash R124: HCLR clears HACC and changes nothing else. -/
def Obligations.HclrClearsHacc : Prop :=
  encode .hclr = 0x00000005 ∧ ∀ s : State, exec .hclr s = .next { s with hacc := 0 }

/-- 41_weakhash R125: HUPD b makes HACC (31 * HACC + b) mod 2^32 for every byte b and changes nothing else; HCLR and then one
HUPD per byte of a sequence leave its hash32 in HACC, and nothing else changed. -/
def Obligations.HupdStepsTheHash : Prop :=
  (∀ (b : Nat) (s : State), b < 256 →
    (encode (.hupd b)).toNat = 6 + b * 256 ∧
    ∃ t, exec (.hupd b) s = .next t ∧ t = { s with hacc := t.hacc } ∧ t.hacc.toNat = (31 * s.hacc.toNat + b) % 2 ^ 32) ∧
  (∀ (u : List Byte) (s : State), s.fcode = 0 → performAll (hashLines u) s = .next { s with hacc := hash32 u })

/-- 41_weakhash R126: HBUF hashes PBUF[0..PLEN-1], whatever HACC held, the seed key in its low byte, and changes nothing else. -/
def Obligations.HbufHashesTheValidBytes : Prop :=
  encode .hbuf = 0x00000007 ∧
  ∀ s : State, s.plen.toNat ≤ 43 →
    ∃ t, exec .hbuf s = .next t ∧ t = { s with hacc := t.hacc } ∧
      t.hacc = hash32 ((List.range s.plen.toNat).map (fun k => s.mem.read (256 + k))) ∧
      t.hacc.setWidth 8 = hash8 ((List.range s.plen.toNat).map (fun k => s.mem.read (256 + k)))

/-- From 41_weakhash R122, as derived there: the 32-bit accumulator that wraps at every byte computes the two masked values of the unbounded hash, for
byte sequences of every length. -/
def Obligations.WrappingHashEqualsUnboundedHash : Prop :=
  ∀ bs : List Byte,
    let wrapped := bs.foldl (fun (acc : Word) b => haccUpdate acc b.toNat) 0
    wrapped.toNat = hashH bs % 2 ^ 32 ∧ wrapped = hash32 bs ∧ wrapped.toNat % 256 = (hash8 bs).toNat

/-- From 41_weakhash R123, as derived there: the closed form of H and its law of composition. -/
def Obligations.HashComposes : Prop :=
  (∀ bs : List Byte, hashH bs = ∑ i ∈ Finset.range bs.length, (bs.getD i 0).toNat * 31 ^ (bs.length - 1 - i)) ∧
  (∀ bs cs : List Byte, hashH (bs ++ cs) = hashH bs * 31 ^ cs.length + hashH cs) ∧
  (∀ bs cs : List Byte, cs.foldl hashStep (hashH bs) = hashH (bs ++ cs))

/-- From 42_obfuscator R144 and R145 (derived there): the key update as the complement of the 32 low bits of the product, and as an affine map. -/
def Obligations.KeyUpdateIsAffine : Prop :=
  ∀ k : Word,
    (keyNext k).toNat = 0xFFFFFFFF - (k.toNat * 131) % 2 ^ 32 ∧
    (keyNext k).toNat = (0xFFFFFF7D * k.toNat + 0xFFFFFFFF) % 2 ^ 32

/-- From 42_obfuscator R146, as derived there: the low byte of the key evolves on its own, k to 125k + 255 mod 256, and visits every byte value within
256 updates from any key. -/
def Obligations.LowKeyByteRunsOneFullCycle : Prop :=
  (∀ k : Word, (keyNext k).toNat % 256 = (125 * (k.toNat % 256) + 255) % 256) ∧
  (∀ (k : Word) (b : Byte), ∃ n < 256, (keyAfter k n).setWidth 8 = b) ∧
  (∀ k : Word, (keyAfter k 256).setWidth 8 = k.setWidth 8)

/-- From 42_obfuscator R148, R142, R147: de-obfuscation gives the source back, header byte 1 is the source's hash8, and the
output is two bytes longer. -/
def Obligations.DeobfuscateUndoesObfuscate : Prop :=
  ∀ src : List Byte,
    deobfuscate (obfuscate src) = src ∧ (obfuscate src).getD 0 0 = 3 ∧ (obfuscate src).getD 1 0 = hash8 src ∧
    (obfuscate src).length = src.length + 2

/-- 42_obfuscator R149: OBF byte by byte, the registers it leaves, and its frame; bytes of OBUF from PLEN + 2 on keep their
values. -/
def Obligations.ObfWritesHeaderAndPayload : Prop :=
  encode .obf = 0x00000008 ∧
  ∀ s : State, s.plen.toNat ≤ 43 →
    let n := s.plen.toNat
    let src := (List.range n).map (fun k => s.mem.read (256 + k))
    let seed : Word := BitVec.ofNat 32 (hashH src % 256)
    ∃ t, exec .obf s = .next t ∧ t = { s with hacc := hash32 src, key := keyAfter seed n, olen := t.olen, mem := t.mem } ∧
      t.olen.toNat = n + 2 ∧ t.mem.read 320 = 3 ∧ t.mem.read 321 = seed.setWidth 8 ∧
      (∀ i < n, t.mem.read (322 + i) = s.mem.read (256 + i) ^^^ (keyAfter seed i).setWidth 8) ∧
      ∀ a, a < 320 ∨ 322 + n ≤ a → t.mem.read a = s.mem.read a

/-- From 43_base64 R166, R160: the code of the character at every position of the alphabet. -/
def Obligations.AlphabetCodes : Prop :=
  ∀ p : BitVec 6, (asciiCode (alphaChar p)).toNat =
    if p.toNat ≤ 25 then 65 + p.toNat else if p.toNat ≤ 51 then 71 + p.toNat else if p.toNat ≤ 61 then p.toNat - 4
    else if p.toNat = 62 then 45 else 95

/-- 43_base64 R161, R162: four characters for every group of three bytes, in terms of those bytes, a missing byte of the last
group as 0, and no other character. -/
def Obligations.EncodeGroupsOfThree : Prop :=
  (∀ bs : List Byte, (b64encode bs).length = 4 * ((bs.length + 2) / 3)) ∧
  ∀ (bs : List Byte) (g : Nat), g < (bs.length + 2) / 3 →
    let b (j : Nat) : Nat := (bs.getD (3 * g + j) 0).toNat
    let c (p : Nat) : Char := alphaChar (BitVec.ofNat 6 p)
    (b64encode bs)[4 * g]? = some (c (b 0 / 4)) ∧ (b64encode bs)[4 * g + 1]? = some (c (b 0 % 4 * 16 + b 1 / 16)) ∧
    (b64encode bs)[4 * g + 2]? = some (c (b 1 % 16 * 4 + b 2 / 64)) ∧ (b64encode bs)[4 * g + 3]? = some (c (b 2 % 64))

/-- 43_base64 R163: the length of an encoding and its characters. -/
def Obligations.EncodeLengthAndCharacters : Prop :=
  (∀ bs : List Byte, (b64encode bs).length = 4 * ((bs.length + 2) / 3) ∧ ∀ c ∈ b64encode bs, c ∈ alphabet) ∧
  alphabet.length = 64 ∧ alphabet.Nodup ∧ alphabet[62]? = some '-' ∧ alphabet[63]? = some '_'

/-- From 43_base64 R164, as derived there: missing bytes encode as zero bytes, so the input's length is lost. -/
def Obligations.EncodeForgetsTrailingZeros : Prop :=
  ∀ bs : List Byte,
    (bs.length % 3 ≠ 0 → b64encode bs = b64encode (bs ++ [0])) ∧
    (bs.length % 3 = 1 → b64encode bs = b64encode (bs ++ [0, 0]))

/-- 43_base64 R165: B64 stores the codes of the encoding of OBUF[0..OLEN-1], sets TLEN, and changes nothing else; bytes of TBUF
from TLEN on keep their values. -/
def Obligations.B64WritesTheToken : Prop :=
  encode .b64 = 0x00000009 ∧
  ∀ s : State, s.olen.toNat ≤ 45 →
    let n := s.olen.toNat
    let token := b64encode ((List.range n).map (fun k => s.mem.read (320 + k)))
    ∃ t, exec .b64 s = .next t ∧ t = { s with tlen := t.tlen, mem := t.mem } ∧ t.tlen.toNat = 4 * ((n + 2) / 3) ∧
      (∀ j < t.tlen.toNat, (token[j]?).map asciiCode = some (t.mem.read (384 + j))) ∧
      ∀ a, a < 384 ∨ 384 + t.tlen.toNat ≤ a → t.mem.read a = s.mem.read a

/-- 44_tokenstate R183: all EMIT leaves, from any state: the refreshed fields, the packed buffer, the obfuscated buffer, the token,
HACC, KEY and the lengths; no other byte and no other register changes; and it is what REFRESH, PACK, OBF and B64 leave. -/
def Obligations.EmitRunsThePipeline : Prop :=
  encode .emit = 0x0000000A ∧
  (∀ s : State, s.fcode = 0 →
    performAll [cmdLine .refresh, cmdLine .pack, cmdLine .obf, cmdLine .b64] s = perform (cmdLine .emit) s) ∧
  ∀ s : State, ∃ r t, exec .refresh s = .next r ∧ exec .emit s = .next t ∧
    let packed := packFields Config.widths (fieldValues r.f)
    let obf := obfuscate packed
    t = { s with f := r.f, hacc := hash32 packed, key := keyAfter ((hash8 packed).setWidth 32) 43,
                 plen := 43, olen := 45, tlen := 60, mem := t.mem } ∧
    (∀ k < 43, packed[k]? = some (t.mem.read (256 + k))) ∧ (∀ k < 45, obf[k]? = some (t.mem.read (320 + k))) ∧
    (∀ k < 60, ((b64encode obf)[k]?).map asciiCode = some (t.mem.read (384 + k))) ∧
    ∀ a, a < 256 ∨ (298 < a ∧ a < 320) ∨ (364 < a ∧ a < 384) ∨ 443 < a → t.mem.read a = s.mem.read a

/-- From 44_tokenstate R187: after an EMIT from any state TBUF holds 60 alphabet characters, the first is A, and the second
stands at position 48 plus the high half of the seed key. -/
def Obligations.TokenWireFormat : Prop :=
  ∀ s : State, ∃ t, exec .emit s = .next t ∧ t.tlen = 60 ∧
    (∀ k < 60, ∃ c ∈ alphabet, t.mem.read (384 + k) = asciiCode c) ∧ t.mem.read 384 = asciiCode 'A' ∧
    t.mem.read 385 = asciiCode (alphaChar (BitVec.ofNat 6 (48 + (t.mem.read 321).toNat / 16)))

/-- From 44_tokenstate R186: the k-th emission after an INIT carries k mod 65536, in field 16 and in bytes 40 and 41 of the packed
buffer; after 65536 of them the counter is 0 again. That the increment precedes the pack is the spec's own reading (R186: "is this
spec's reading"), log 11. -/
def Obligations.KthEmissionCarriesK : Prop :=
  ∀ (k : Nat) (s : State), s.fcode = 0 →
    ∃ t, performAll (cmdLine .init :: List.replicate k (cmdLine .emit)) s = .next t ∧ t.f[16].toNat = k % 65536 ∧
      (0 < k → (t.mem.read (256 + 40)).toNat = k % 65536 / 256 ∧ (t.mem.read (256 + 41)).toNat = k % 256)

/-- From 44_tokenstate R189: of the commands (a host write and a reset are none), those other than INIT change fields 0, 3, 4, 5, 6, 13, 14 and 17 only through UNPACK. -/
def Obligations.ConstantsPersist : Prop :=
  ∀ (i : Instr) (s : State), i ≠ .init → i ≠ .unpack →
    ∃ t, exec i s = .next t ∧ ∀ j : Fin 18, (j : Nat) ∈ [0, 3, 4, 5, 6, 13, 14, 17] → t.f[j] = s.f[j]

/-- From 20_memory R67, the W entries, and 10_state R24: what each command leaves untouched. Of OBUF, OBF may write bytes 0 to
PLEN + 1 and EMIT all 45; of TBUF, B64 may write bytes below the TLEN it sets, 4 * ceil(OLEN / 3), and EMIT all 60. -/
def Obligations.CommandsWriteOnlyTheirStorage : Prop :=
  ∀ (i : Instr) (s : State), ∃ t, exec i s = .next t ∧
    t.a = s.a ∧ t.fcode = s.fcode ∧ t.finfo = s.finfo ∧ t.pending = s.pending ∧ t.pc = s.pc ∧ t.delivered = s.delivered ∧
    (i ≠ .init → i ≠ .refresh → i ≠ .unpack → i ≠ .emit → t.f = s.f) ∧
    (i ≠ .hclr → (∀ b, i ≠ .hupd b) → i ≠ .hbuf → i ≠ .obf → i ≠ .emit → t.hacc = s.hacc) ∧
    (i ≠ .obf → i ≠ .emit → t.key = s.key ∧ t.olen = s.olen) ∧ (i ≠ .pack → i ≠ .emit → t.plen = s.plen) ∧
    (i ≠ .b64 → i ≠ .emit → t.tlen = s.tlen) ∧
    ∀ a, (i = .pack ∨ i = .emit → ¬(256 ≤ a ∧ a ≤ 298)) →
      (i = .obf → ¬(320 ≤ a ∧ a ≤ 364 ∧ a ≤ 320 + (s.plen.toNat + 1))) → (i = .emit → ¬(320 ≤ a ∧ a ≤ 364)) →
      (i = .b64 → ¬(384 ≤ a ∧ a ≤ 443 ∧ a < 384 + 4 * ((s.olen.toNat + 2) / 3))) → (i = .emit → ¬(384 ≤ a ∧ a ≤ 443)) →
      t.mem.read a = s.mem.read a

/-- From 20_memory R66 and 10_state R26: no command reads a byte at or above its buffer's length register, or the KEY a previous
command left. Two states that agree on F, A, HACC, the lengths and the valid bytes still do after any command. -/
def Obligations.StaleBytesAndKeyAreNeverRead : Prop :=
  let agree (s t : State) : Prop :=
    s.f = t.f ∧ s.a = t.a ∧ s.hacc = t.hacc ∧ s.plen = t.plen ∧ s.olen = t.olen ∧ s.tlen = t.tlen ∧
    s.plen.toNat ≤ 43 ∧ s.olen.toNat ≤ 45 ∧ s.tlen.toNat ≤ 60 ∧
    (∀ k < s.plen.toNat, s.mem.read (256 + k) = t.mem.read (256 + k)) ∧
    (∀ k < s.olen.toNat, s.mem.read (320 + k) = t.mem.read (320 + k)) ∧
    (∀ k < s.tlen.toNat, s.mem.read (384 + k) = t.mem.read (384 + k))
  ∀ (i : Instr) (s t : State), agree s t →
    ∃ s' t', exec i s = .next s' ∧ exec i t = .next t' ∧ agree s' t' ∧ (i = .obf ∨ i = .emit → s'.key = t'.key)

/-- 60_exceptions R204: no command faults, in any state. -/
def Obligations.NoEngineFaults : Prop :=
  ∀ (i : Instr) (s : State), ∃ t, exec i s = .next t ∧ t.fcode = s.fcode ∧ t.finfo = s.finfo

/-- Every step of every state answers a next state: no operation of the host and no state stops the machine (60_exceptions R204,
R209; the three port faults are next states, log 3). Where an operation was pending the pc is one higher (10_state R34) and that
operation is taken; `pending` and `pc` are the model's choice, log 1, and so is the step with none pending, log 2. -/
def Obligations.EveryStepAnswers : Prop :=
  ∀ s : State, ∃ t, step s = .next t ∧ (s.pending ≠ [] → t.pc = s.pc + 1 ∧ t.pending = s.pending.tail)

/-- Every step keeps the invariant: the lengths in range (10_state R27), FCODE and FINFO fitting together (R28, R29), the buffers in
canonical form and nothing outside them, the valid token bytes codes of the alphabet (43_base64 R163). -/
def Obligations.StepKeepsTheInvariant : Prop :=
  ∀ s t : State, s.Inv → step s = .next t → t.Inv

/-- The invariant holds at reset. -/
def Obligations.ResetMeetsTheInvariant : Prop := State.reset.Inv

/-- From 70_reset_and_hazards R232: the boot sequence, from any state after its reset line or from any CORE that is not halted,
leaves F as INIT gives it for the nonce and the hash of the user-agent bytes, that hash in HACC and the nonce in A[0]; all else is
as it was before the sequence, or as the reset left it. -/
def Obligations.BootSequenceConstructsTheGenerator : Prop :=
  ∀ (u : List Byte) (z : Word),
    (∀ s : State, s.fcode = 0 → ∃ t, performAll (bootLines u z) s = .next t ∧ t.f[0] = z ∧ t.f[3] = hash32 u ∧ t.f[5] = 11 ∧
      t.f[13] = 2848 ∧ t.f[17] = 3 ∧ (∀ i : Fin 18, (i : Nat) ∉ [0, 3, 5, 13, 17] → t.f[i] = 0) ∧
      t = { s with f := t.f, hacc := hash32 u, a := s.a.set 0 z }) ∧
    (∀ s : State, ∃ t, performAll (.reset :: bootLines u z) s = .next t ∧
      t = { State.reset with f := #v[z, 0, 0, hash32 u, 0, 11, 0, 0, 0, 0, 0, 0, 0, 2848, 0, 0, 0, 3], hacc := hash32 u,
                             a := #v[z, 0, 0, 0, 0, 0, 0, 0],
                             pending := s.pending, pc := s.pc, delivered := s.delivered })

/-- From 70_reset_and_hazards R233: the per-emission sequence, on a CORE that is not halted, delivers to the host the 60 codes of
`encode(obfuscate(pack(F)))` for the fields refreshed with its operands, and no CORE fault is recorded. -/
def Obligations.EmissionSequenceDeliversTheToken : Prop :=
  ∀ (v : Vector Word 8) (s : State), s.fcode = 0 →
    ∃ r t, exec .refresh { s with a := v } = .next r ∧ performAll (emissionLines v) s = .next t ∧
      t.delivered = s.delivered ++
        (b64encode (obfuscate (packFields Config.widths (fieldValues r.f)))).map (fun c => (asciiCode c).setWidth 32) ∧
      t.f = r.f ∧ t.a = v ∧ t.fcode = 0

/-- From 44_tokenstate R184 and 40_fieldcodec R111: where every field fits its width and the draws are in range, the fields of an
emission fit too, and unpacking what EMIT packed gives them back. The bounds are admitted by the spec's decision (R184). -/
def Obligations.InRangeDrawsSurvivePacking : Prop :=
  ∀ s : State, fieldsFit s.f = true → operandsInRange s.a = true →
    ∃ t, exec .emit s = .next t ∧ fieldsFit t.f = true ∧
      fieldFileOf ((List.range 43).map (fun k => t.mem.read (256 + k))) = t.f

/-- From 20_memory R61 and 70_reset_and_hazards R237: whatever way another host's reads of mapped readable registers fall between
the operations of a script, the hardware ends as the script alone leaves it. -/
def Obligations.InterleavedReadsDoNotDisturb : Prop :=
  ∀ (xs ys zs : List HostOp) (s : State), Interleaving xs ys zs →
    (∀ op ∈ ys, ∃ n r, op = .read n ∧ regOf n = some r ∧ r.readable = true) →
    ∃ t u, performAll xs s = .next t ∧ performAll zs s = .next u ∧ t.coreOf = u.coreOf

/-- From 44_tokenstate R188 and 70_reset_and_hazards R244: two COREs in the same hardware state, driven by the same script, end in
the same hardware state and deliver the same read values. -/
def Obligations.SameScriptSameResult : Prop :=
  ∀ (ops : List HostOp) (s s' : State), s.coreOf = s'.coreOf →
    ∃ t t' vs, performAll ops s = .next t ∧ performAll ops s' = .next t' ∧ t.coreOf = t'.coreOf ∧
      t.delivered = s.delivered ++ vs ∧ t'.delivered = s'.delivered ++ vs

/-- From 60_exceptions R215: a step of one CORE leaves every other as it was, and steps of two COREs may be taken in either order.
A system as a list of states in which one CORE steps at a time, a number beyond the list changing nothing, is the model's choice,
log 4. -/
def Obligations.InstancesAreIndependent : Prop :=
  (∀ (k : Nat) (cores : List State), ∃ after, systemStep k cores = .next after ∧ after.length = cores.length ∧
    ∀ j ≠ k, after[j]? = cores[j]?) ∧
  (∀ (j k : Nat) (cores : List State), j ≠ k → ∃ a b after, systemStep j cores = .next a ∧ systemStep k cores = .next b ∧
    systemStep k a = .next after ∧ systemStep j b = .next after)

/-- 00_scope R8: a machine is constructed from the specified width table and from no other. -/
def Obligations.WrongWidthTableIsRefused : Prop :=
  ∀ table : List Nat,
    (table = [4, 4, 4, 4, 1, 1, 1, 3, 2, 2, 2, 2, 2, 2, 2, 4, 2, 1] → construct table = .next State.reset) ∧
    (table ≠ [4, 4, 4, 4, 1, 1, 1, 3, 2, 2, 2, 2, 2, 2, 2, 4, 2, 1] → construct table = .refused .configurationCorruption) ∧
    (table.length ≠ 18 ∨ table.sum ≠ 43 → construct table = .refused .configurationCorruption)

/-- From 30_encoding R88: a comment changes nothing of a line without quoted text. That the value a script may state after `rd` is
ignored, and that a line of comment alone is no operation, is the model's choice, log 13. -/
def Obligations.CommentsAreIgnored : Prop :=
  ∀ line comment : List Char, '"' ∉ line → ';' ∉ line →
    assembleLine (line ++ ';' :: comment) = assembleLine line
end

