-- ==== Sys2Proof/Laws/Memory.lean ====
section
/-! SUPPORT. The laws of the buffers' memory: what a read gives after a write, and that every operation keeps the canonical
form. -/

namespace Sys2Proof.Machine

theorem Memory.read_erase (m : Memory) (a x : Nat) :
    Memory.read (m.erase a) x = if x = a then Config.unlisted else m.read x := by
  induction m with
  | nil => simp [Memory.erase, Memory.read]
  | cons c rest ih =>
    obtain ⟨k, b⟩ := c
    simp only [Memory.erase] at ih
    by_cases hk : k = a
    · subst hk
      by_cases hx : x = k
      · simp_all [Memory.erase]
      · simp_all [Memory.erase, Memory.read, eq_comm]
    · by_cases hx : x = a
      · subst hx
        simp_all [Memory.erase, Memory.read]
      · simp_all [Memory.erase, Memory.read]

theorem Memory.read_insertCell (m : Memory) (a : Nat) (b : Byte) (x : Nat) (h : ∀ c ∈ m, c.1 ≠ a) :
    Memory.read (m.insertCell a b) x = if x = a then b else m.read x := by
  induction m with
  | nil => simp [Memory.insertCell, Memory.read, eq_comm (a := a)]
  | cons c rest ih =>
    obtain ⟨k, d⟩ := c
    have hk : k ≠ a := h (k, d) (by simp)
    have ih := ih fun c hc => h c (by simp [hc])
    by_cases hlt : k < a
    · by_cases hx : x = k
      · subst hx; simp [Memory.insertCell, Memory.read, hlt, hk]
      · simp [Memory.insertCell, Memory.read, hlt, Ne.symm hx, ih]
    · simp [Memory.insertCell, Memory.read, hlt, eq_comm (a := a)]

/-- What a read gives after a write, for every memory, canonical or not. -/
theorem Memory.read_write (m : Memory) (a : Nat) (b : Byte) (x : Nat) :
    (m.write a b).read x = if x = a then b else m.read x := by
  unfold Memory.write
  split
  · rename_i h; rw [Memory.read_erase, h]
  · rw [Memory.read_insertCell _ _ _ _ (by simp [Memory.erase]), Memory.read_erase]
    split <;> rfl

theorem Memory.read_writeBytes (m : Memory) (base : Nat) (bs : List Byte) (x : Nat) :
    (m.writeBytes base bs).read x = if base ≤ x ∧ x < base + bs.length then bs.getD (x - base) 0 else m.read x := by
  induction bs generalizing m base with
  | nil => simp [Memory.writeBytes]
  | cons b rest ih =>
    rw [Memory.writeBytes, ih, Memory.read_write, List.length_cons]
    by_cases h1 : base + 1 ≤ x ∧ x < base + 1 + rest.length
    · have h2 : x - base = x - (base + 1) + 1 := by omega
      simp [h1, show base ≤ x ∧ x < base + (rest.length + 1) by omega, h2]
    · by_cases h2 : x = base
      · subst h2; simp
      · rw [if_neg h1, if_neg h2, if_neg (by omega)]

@[simp] theorem Memory.bytes_length (m : Memory) (base n : Nat) : (m.bytes base n).length = n := by simp [Memory.bytes]

theorem Memory.bytes_getElem? (m : Memory) (base n k : Nat) (h : k < n) : (m.bytes base n)[k]? = some (m.read (base + k)) := by
  simp [Memory.bytes, h]

theorem Memory.bytes_getD (m : Memory) (base n k : Nat) :
    (m.bytes base n).getD k 0 = if k < n then m.read (base + k) else 0 := by
  by_cases h : k < n <;> simp [Memory.bytes, List.getD_eq_getElem?_getD, h]

theorem Memory.wf_erase (m : Memory) (a : Nat) (h : m.wf = true) : Memory.wf (m.erase a) = true := by
  induction m with
  | nil => rfl
  | cons c rest ih =>
    obtain ⟨k, b⟩ := c
    simp only [Memory.wf, Bool.and_eq_true, List.all_eq_true, decide_eq_true_eq] at h
    have ih := ih h.2
    by_cases hk : k = a
    · simpa [Memory.erase, hk] using ih
    · simp only [Memory.erase] at ih
      simp only [Memory.erase, List.filter_cons, hk, bne_iff_ne, ne_eq, not_false_eq_true, ite_true, Memory.wf,
        Bool.and_eq_true, List.all_eq_true, decide_eq_true_eq, ih, and_true]
      exact ⟨by simpa using h.1.1, fun c hc => h.1.2 c (List.mem_filter.mp hc).1⟩

theorem Memory.mem_insertCell (m : Memory) (a : Nat) (b : Byte) (c : Host.Cell) (h : c ∈ Memory.insertCell m a b) :
    c = (a, b) ∨ c ∈ m := by
  induction m with
  | nil => simpa [Memory.insertCell] using h
  | cons d rest ih =>
    obtain ⟨k, e⟩ := d
    simp only [Memory.insertCell] at h
    split at h
    · rcases List.mem_cons.mp h with h | h
      · exact .inr (by simp [h])
      · rcases ih h with h | h
        · exact .inl h
        · exact .inr (by simp [h])
    · simpa using h

theorem Memory.wf_insertCell (m : Memory) (a : Nat) (b : Byte) (hb : b ≠ Config.unlisted) (hm : m.wf = true)
    (h : ∀ c ∈ m, c.1 ≠ a) : Memory.wf (m.insertCell a b) = true := by
  induction m with
  | nil => simp [Memory.insertCell, Memory.wf, hb]
  | cons d rest ih =>
    obtain ⟨k, e⟩ := d
    have hk : k ≠ a := h (k, e) (by simp)
    have hm0 := hm
    simp only [Memory.wf, Bool.and_eq_true, List.all_eq_true, decide_eq_true_eq] at hm
    have ih := ih hm.2 fun c hc => h c (by simp [hc])
    by_cases hlt : k < a
    · simp only [Memory.insertCell, hlt, ite_true, Memory.wf, Bool.and_eq_true, List.all_eq_true, decide_eq_true_eq, ih,
        and_true]
      refine ⟨hm.1.1, fun c hc => ?_⟩
      rcases Memory.mem_insertCell _ _ _ _ hc with rfl | hc
      · exact hlt
      · exact hm.1.2 c hc
    · simp only [Memory.insertCell, hlt, ite_false]
      rw [Memory.wf, hm0]
      simp only [bne_iff_ne, ne_eq, hb, not_false_eq_true, Bool.and_true, Bool.and_eq_true, List.all_eq_true,
        decide_eq_true_eq, true_and]
      intro c hc
      rcases List.mem_cons.mp hc with rfl | hc
      · simp only; omega
      · have := hm.1.2 c hc; omega

/-- A write keeps the canonical form. -/
theorem Memory.wf_write (m : Memory) (a : Nat) (b : Byte) (h : m.wf = true) : Memory.wf (m.write a b) = true := by
  unfold Memory.write
  split
  · exact Memory.wf_erase m a h
  · rename_i hb
    exact Memory.wf_insertCell _ a b hb (Memory.wf_erase m a h) (by simp [Memory.erase])

/-- Writing a sequence of bytes keeps the canonical form. -/
theorem Memory.wf_writeBytes (m : Memory) (base : Nat) (bs : List Byte) (h : m.wf = true) :
    Memory.wf (m.writeBytes base bs) = true := by
  induction bs generalizing m base with
  | nil => exact h
  | cons b rest ih => exact ih _ _ (Memory.wf_write m base b h)

theorem Memory.mem_write (m : Memory) (a : Nat) (b : Byte) (c : Host.Cell) (h : c ∈ Memory.write m a b) :
    c.1 = a ∨ c ∈ m := by
  unfold Memory.write Memory.erase at h
  split at h
  · exact .inr (List.mem_filter.mp h).1
  · rcases Memory.mem_insertCell _ _ _ _ h with rfl | h
    · exact .inl rfl
    · exact .inr (List.mem_filter.mp h).1

theorem Memory.mem_writeBytes (m : Memory) (base : Nat) (bs : List Byte) (c : Host.Cell)
    (h : c ∈ Memory.writeBytes m base bs) : (base ≤ c.1 ∧ c.1 < base + bs.length) ∨ c ∈ m := by
  induction bs generalizing m base with
  | nil => exact .inr h
  | cons b rest ih =>
    rcases ih _ _ h with h | h
    · exact .inl (by simp only [List.length_cons]; omega)
    · rcases Memory.mem_write _ _ _ _ h with h | h
      · exact .inl (by simp only [List.length_cons]; omega)
      · exact .inr h

theorem Memory.read_of_lt (m : Memory) (a : Nat) (h : ∀ c ∈ m, a < c.1) : m.read a = Config.unlisted := by
  induction m with
  | nil => rfl
  | cons c rest ih =>
    obtain ⟨k, b⟩ := c
    have hk : a < k := h (k, b) (by simp)
    have ih := ih fun c hc => h c (by simp [hc])
    simp [Memory.read, show k ≠ a by omega, ih]

/-- Two canonical memories that read alike everywhere are the same list: equal memories are equal data. -/
theorem Memory.ext_of_wf (m n : Memory) (hm : m.wf = true) (hn : n.wf = true) (h : ∀ a, m.read a = n.read a) : m = n := by
  induction m generalizing n with
  | nil =>
    cases n with
    | nil => rfl
    | cons d rest =>
      obtain ⟨k, e⟩ := d
      have := h k
      simp_all [Memory.read, Memory.wf]
  | cons c mrest ih =>
    obtain ⟨j, b⟩ := c
    have hj := h j
    simp only [Memory.wf, Bool.and_eq_true, List.all_eq_true, decide_eq_true_eq, bne_iff_ne, ne_eq] at hm
    cases n with
    | nil => simp_all [Memory.read]
    | cons d nrest =>
      obtain ⟨k, e⟩ := d
      have hk := h k
      simp only [Memory.wf, Bool.and_eq_true, List.all_eq_true, decide_eq_true_eq, bne_iff_ne, ne_eq] at hn
      have hjk : j = k := by
        rcases Nat.lt_trichotomy j k with hlt | rfl | hlt
        · have := Memory.read_of_lt nrest j fun c hc => Nat.lt_trans hlt (hn.1.2 c hc)
          simp_all [Memory.read, show k ≠ j by omega]
        · rfl
        · have := Memory.read_of_lt mrest k fun c hc => Nat.lt_trans hlt (hm.1.2 c hc)
          simp_all [Memory.read, show j ≠ k by omega]
      subst hjk
      have hbe : b = e := by simpa [Memory.read] using hj
      subst hbe
      rw [ih nrest hm.2 hn.2]
      intro a
      by_cases ha : j = a
      · subst ha
        rw [Memory.read_of_lt _ _ hm.1.2, Memory.read_of_lt _ _ hn.1.2]
      · simpa [Memory.read, ha] using h a

end Sys2Proof.Machine
end

