-- ==== Sys2Proof/Laws/State.lean ====
section
/-! SUPPORT. One lemma per field and update of `State`, so that no proof unfolds a record update. -/

namespace Sys2Proof.Machine

variable (s : State)

@[simp] theorem State.setF_f (v : Vector Word 18) : (s.setF v).f = v := rfl
@[simp] theorem State.setF_a (v : Vector Word 18) : (s.setF v).a = s.a := rfl
@[simp] theorem State.setF_hacc (v : Vector Word 18) : (s.setF v).hacc = s.hacc := rfl
@[simp] theorem State.setF_key (v : Vector Word 18) : (s.setF v).key = s.key := rfl
@[simp] theorem State.setF_plen (v : Vector Word 18) : (s.setF v).plen = s.plen := rfl
@[simp] theorem State.setF_olen (v : Vector Word 18) : (s.setF v).olen = s.olen := rfl
@[simp] theorem State.setF_tlen (v : Vector Word 18) : (s.setF v).tlen = s.tlen := rfl
@[simp] theorem State.setF_fcode (v : Vector Word 18) : (s.setF v).fcode = s.fcode := rfl
@[simp] theorem State.setF_finfo (v : Vector Word 18) : (s.setF v).finfo = s.finfo := rfl
@[simp] theorem State.setF_mem (v : Vector Word 18) : (s.setF v).mem = s.mem := rfl
@[simp] theorem State.setF_pending (v : Vector Word 18) : (s.setF v).pending = s.pending := rfl
@[simp] theorem State.setF_pc (v : Vector Word 18) : (s.setF v).pc = s.pc := rfl
@[simp] theorem State.setF_delivered (v : Vector Word 18) : (s.setF v).delivered = s.delivered := rfl

@[simp] theorem State.setA_f (v : Vector Word 8) : (s.setA v).f = s.f := rfl
@[simp] theorem State.setA_a (v : Vector Word 8) : (s.setA v).a = v := rfl
@[simp] theorem State.setA_hacc (v : Vector Word 8) : (s.setA v).hacc = s.hacc := rfl
@[simp] theorem State.setA_key (v : Vector Word 8) : (s.setA v).key = s.key := rfl
@[simp] theorem State.setA_plen (v : Vector Word 8) : (s.setA v).plen = s.plen := rfl
@[simp] theorem State.setA_olen (v : Vector Word 8) : (s.setA v).olen = s.olen := rfl
@[simp] theorem State.setA_tlen (v : Vector Word 8) : (s.setA v).tlen = s.tlen := rfl
@[simp] theorem State.setA_fcode (v : Vector Word 8) : (s.setA v).fcode = s.fcode := rfl
@[simp] theorem State.setA_finfo (v : Vector Word 8) : (s.setA v).finfo = s.finfo := rfl
@[simp] theorem State.setA_mem (v : Vector Word 8) : (s.setA v).mem = s.mem := rfl
@[simp] theorem State.setA_pending (v : Vector Word 8) : (s.setA v).pending = s.pending := rfl
@[simp] theorem State.setA_pc (v : Vector Word 8) : (s.setA v).pc = s.pc := rfl
@[simp] theorem State.setA_delivered (v : Vector Word 8) : (s.setA v).delivered = s.delivered := rfl

@[simp] theorem State.setHacc_f (v : Word) : (s.setHacc v).f = s.f := rfl
@[simp] theorem State.setHacc_a (v : Word) : (s.setHacc v).a = s.a := rfl
@[simp] theorem State.setHacc_hacc (v : Word) : (s.setHacc v).hacc = v := rfl
@[simp] theorem State.setHacc_key (v : Word) : (s.setHacc v).key = s.key := rfl
@[simp] theorem State.setHacc_plen (v : Word) : (s.setHacc v).plen = s.plen := rfl
@[simp] theorem State.setHacc_olen (v : Word) : (s.setHacc v).olen = s.olen := rfl
@[simp] theorem State.setHacc_tlen (v : Word) : (s.setHacc v).tlen = s.tlen := rfl
@[simp] theorem State.setHacc_fcode (v : Word) : (s.setHacc v).fcode = s.fcode := rfl
@[simp] theorem State.setHacc_finfo (v : Word) : (s.setHacc v).finfo = s.finfo := rfl
@[simp] theorem State.setHacc_mem (v : Word) : (s.setHacc v).mem = s.mem := rfl
@[simp] theorem State.setHacc_pending (v : Word) : (s.setHacc v).pending = s.pending := rfl
@[simp] theorem State.setHacc_pc (v : Word) : (s.setHacc v).pc = s.pc := rfl
@[simp] theorem State.setHacc_delivered (v : Word) : (s.setHacc v).delivered = s.delivered := rfl

@[simp] theorem State.setKey_f (v : Word) : (s.setKey v).f = s.f := rfl
@[simp] theorem State.setKey_a (v : Word) : (s.setKey v).a = s.a := rfl
@[simp] theorem State.setKey_hacc (v : Word) : (s.setKey v).hacc = s.hacc := rfl
@[simp] theorem State.setKey_key (v : Word) : (s.setKey v).key = v := rfl
@[simp] theorem State.setKey_plen (v : Word) : (s.setKey v).plen = s.plen := rfl
@[simp] theorem State.setKey_olen (v : Word) : (s.setKey v).olen = s.olen := rfl
@[simp] theorem State.setKey_tlen (v : Word) : (s.setKey v).tlen = s.tlen := rfl
@[simp] theorem State.setKey_fcode (v : Word) : (s.setKey v).fcode = s.fcode := rfl
@[simp] theorem State.setKey_finfo (v : Word) : (s.setKey v).finfo = s.finfo := rfl
@[simp] theorem State.setKey_mem (v : Word) : (s.setKey v).mem = s.mem := rfl
@[simp] theorem State.setKey_pending (v : Word) : (s.setKey v).pending = s.pending := rfl
@[simp] theorem State.setKey_pc (v : Word) : (s.setKey v).pc = s.pc := rfl
@[simp] theorem State.setKey_delivered (v : Word) : (s.setKey v).delivered = s.delivered := rfl

@[simp] theorem State.setPlen_f (v : Word) : (s.setPlen v).f = s.f := rfl
@[simp] theorem State.setPlen_a (v : Word) : (s.setPlen v).a = s.a := rfl
@[simp] theorem State.setPlen_hacc (v : Word) : (s.setPlen v).hacc = s.hacc := rfl
@[simp] theorem State.setPlen_key (v : Word) : (s.setPlen v).key = s.key := rfl
@[simp] theorem State.setPlen_plen (v : Word) : (s.setPlen v).plen = v := rfl
@[simp] theorem State.setPlen_olen (v : Word) : (s.setPlen v).olen = s.olen := rfl
@[simp] theorem State.setPlen_tlen (v : Word) : (s.setPlen v).tlen = s.tlen := rfl
@[simp] theorem State.setPlen_fcode (v : Word) : (s.setPlen v).fcode = s.fcode := rfl
@[simp] theorem State.setPlen_finfo (v : Word) : (s.setPlen v).finfo = s.finfo := rfl
@[simp] theorem State.setPlen_mem (v : Word) : (s.setPlen v).mem = s.mem := rfl
@[simp] theorem State.setPlen_pending (v : Word) : (s.setPlen v).pending = s.pending := rfl
@[simp] theorem State.setPlen_pc (v : Word) : (s.setPlen v).pc = s.pc := rfl
@[simp] theorem State.setPlen_delivered (v : Word) : (s.setPlen v).delivered = s.delivered := rfl

@[simp] theorem State.setOlen_f (v : Word) : (s.setOlen v).f = s.f := rfl
@[simp] theorem State.setOlen_a (v : Word) : (s.setOlen v).a = s.a := rfl
@[simp] theorem State.setOlen_hacc (v : Word) : (s.setOlen v).hacc = s.hacc := rfl
@[simp] theorem State.setOlen_key (v : Word) : (s.setOlen v).key = s.key := rfl
@[simp] theorem State.setOlen_plen (v : Word) : (s.setOlen v).plen = s.plen := rfl
@[simp] theorem State.setOlen_olen (v : Word) : (s.setOlen v).olen = v := rfl
@[simp] theorem State.setOlen_tlen (v : Word) : (s.setOlen v).tlen = s.tlen := rfl
@[simp] theorem State.setOlen_fcode (v : Word) : (s.setOlen v).fcode = s.fcode := rfl
@[simp] theorem State.setOlen_finfo (v : Word) : (s.setOlen v).finfo = s.finfo := rfl
@[simp] theorem State.setOlen_mem (v : Word) : (s.setOlen v).mem = s.mem := rfl
@[simp] theorem State.setOlen_pending (v : Word) : (s.setOlen v).pending = s.pending := rfl
@[simp] theorem State.setOlen_pc (v : Word) : (s.setOlen v).pc = s.pc := rfl
@[simp] theorem State.setOlen_delivered (v : Word) : (s.setOlen v).delivered = s.delivered := rfl

@[simp] theorem State.setTlen_f (v : Word) : (s.setTlen v).f = s.f := rfl
@[simp] theorem State.setTlen_a (v : Word) : (s.setTlen v).a = s.a := rfl
@[simp] theorem State.setTlen_hacc (v : Word) : (s.setTlen v).hacc = s.hacc := rfl
@[simp] theorem State.setTlen_key (v : Word) : (s.setTlen v).key = s.key := rfl
@[simp] theorem State.setTlen_plen (v : Word) : (s.setTlen v).plen = s.plen := rfl
@[simp] theorem State.setTlen_olen (v : Word) : (s.setTlen v).olen = s.olen := rfl
@[simp] theorem State.setTlen_tlen (v : Word) : (s.setTlen v).tlen = v := rfl
@[simp] theorem State.setTlen_fcode (v : Word) : (s.setTlen v).fcode = s.fcode := rfl
@[simp] theorem State.setTlen_finfo (v : Word) : (s.setTlen v).finfo = s.finfo := rfl
@[simp] theorem State.setTlen_mem (v : Word) : (s.setTlen v).mem = s.mem := rfl
@[simp] theorem State.setTlen_pending (v : Word) : (s.setTlen v).pending = s.pending := rfl
@[simp] theorem State.setTlen_pc (v : Word) : (s.setTlen v).pc = s.pc := rfl
@[simp] theorem State.setTlen_delivered (v : Word) : (s.setTlen v).delivered = s.delivered := rfl

@[simp] theorem State.setMem_f (v : Memory) : (s.setMem v).f = s.f := rfl
@[simp] theorem State.setMem_a (v : Memory) : (s.setMem v).a = s.a := rfl
@[simp] theorem State.setMem_hacc (v : Memory) : (s.setMem v).hacc = s.hacc := rfl
@[simp] theorem State.setMem_key (v : Memory) : (s.setMem v).key = s.key := rfl
@[simp] theorem State.setMem_plen (v : Memory) : (s.setMem v).plen = s.plen := rfl
@[simp] theorem State.setMem_olen (v : Memory) : (s.setMem v).olen = s.olen := rfl
@[simp] theorem State.setMem_tlen (v : Memory) : (s.setMem v).tlen = s.tlen := rfl
@[simp] theorem State.setMem_fcode (v : Memory) : (s.setMem v).fcode = s.fcode := rfl
@[simp] theorem State.setMem_finfo (v : Memory) : (s.setMem v).finfo = s.finfo := rfl
@[simp] theorem State.setMem_mem (v : Memory) : (s.setMem v).mem = v := rfl
@[simp] theorem State.setMem_pending (v : Memory) : (s.setMem v).pending = s.pending := rfl
@[simp] theorem State.setMem_pc (v : Memory) : (s.setMem v).pc = s.pc := rfl
@[simp] theorem State.setMem_delivered (v : Memory) : (s.setMem v).delivered = s.delivered := rfl

@[simp] theorem State.setFault_f (v : Byte) (w : Word) : (s.setFault v w).f = s.f := rfl
@[simp] theorem State.setFault_a (v : Byte) (w : Word) : (s.setFault v w).a = s.a := rfl
@[simp] theorem State.setFault_hacc (v : Byte) (w : Word) : (s.setFault v w).hacc = s.hacc := rfl
@[simp] theorem State.setFault_key (v : Byte) (w : Word) : (s.setFault v w).key = s.key := rfl
@[simp] theorem State.setFault_plen (v : Byte) (w : Word) : (s.setFault v w).plen = s.plen := rfl
@[simp] theorem State.setFault_olen (v : Byte) (w : Word) : (s.setFault v w).olen = s.olen := rfl
@[simp] theorem State.setFault_tlen (v : Byte) (w : Word) : (s.setFault v w).tlen = s.tlen := rfl
@[simp] theorem State.setFault_fcode (v : Byte) (w : Word) : (s.setFault v w).fcode = v := rfl
@[simp] theorem State.setFault_finfo (v : Byte) (w : Word) : (s.setFault v w).finfo = w := rfl
@[simp] theorem State.setFault_mem (v : Byte) (w : Word) : (s.setFault v w).mem = s.mem := rfl
@[simp] theorem State.setFault_pending (v : Byte) (w : Word) : (s.setFault v w).pending = s.pending := rfl
@[simp] theorem State.setFault_pc (v : Byte) (w : Word) : (s.setFault v w).pc = s.pc := rfl
@[simp] theorem State.setFault_delivered (v : Byte) (w : Word) : (s.setFault v w).delivered = s.delivered := rfl

@[simp] theorem State.deliver_f (v : Word) : (s.deliver v).f = s.f := rfl
@[simp] theorem State.deliver_a (v : Word) : (s.deliver v).a = s.a := rfl
@[simp] theorem State.deliver_hacc (v : Word) : (s.deliver v).hacc = s.hacc := rfl
@[simp] theorem State.deliver_key (v : Word) : (s.deliver v).key = s.key := rfl
@[simp] theorem State.deliver_plen (v : Word) : (s.deliver v).plen = s.plen := rfl
@[simp] theorem State.deliver_olen (v : Word) : (s.deliver v).olen = s.olen := rfl
@[simp] theorem State.deliver_tlen (v : Word) : (s.deliver v).tlen = s.tlen := rfl
@[simp] theorem State.deliver_fcode (v : Word) : (s.deliver v).fcode = s.fcode := rfl
@[simp] theorem State.deliver_finfo (v : Word) : (s.deliver v).finfo = s.finfo := rfl
@[simp] theorem State.deliver_mem (v : Word) : (s.deliver v).mem = s.mem := rfl
@[simp] theorem State.deliver_pending (v : Word) : (s.deliver v).pending = s.pending := rfl
@[simp] theorem State.deliver_pc (v : Word) : (s.deliver v).pc = s.pc := rfl
@[simp] theorem State.deliver_delivered (v : Word) : (s.deliver v).delivered = s.delivered ++ [v] := rfl

@[simp] theorem State.resetCore_f : s.resetCore.f = State.reset.f := rfl
@[simp] theorem State.resetCore_a : s.resetCore.a = State.reset.a := rfl
@[simp] theorem State.resetCore_hacc : s.resetCore.hacc = State.reset.hacc := rfl
@[simp] theorem State.resetCore_key : s.resetCore.key = State.reset.key := rfl
@[simp] theorem State.resetCore_plen : s.resetCore.plen = State.reset.plen := rfl
@[simp] theorem State.resetCore_olen : s.resetCore.olen = State.reset.olen := rfl
@[simp] theorem State.resetCore_tlen : s.resetCore.tlen = State.reset.tlen := rfl
@[simp] theorem State.resetCore_fcode : s.resetCore.fcode = State.reset.fcode := rfl
@[simp] theorem State.resetCore_finfo : s.resetCore.finfo = State.reset.finfo := rfl
@[simp] theorem State.resetCore_mem : s.resetCore.mem = State.reset.mem := rfl
@[simp] theorem State.resetCore_pending : s.resetCore.pending = s.pending := rfl
@[simp] theorem State.resetCore_pc : s.resetCore.pc = s.pc := rfl
@[simp] theorem State.resetCore_delivered : s.resetCore.delivered = s.delivered := rfl

end Sys2Proof.Machine
end

