-- ==== Sys2Proof/Laws/Engines.lean ====
section
/-! SUPPORT. The lengths of the engines' outputs and the change of state of each command, said once. -/

namespace Sys2Proof.Machine

@[simp] theorem bigEndian_length (w x : Nat) : (bigEndian w x).length = w := by simp [bigEndian]

@[simp] theorem xorStream_length (k : Word) (bs : List Byte) : (xorStream k bs).length = bs.length := by
  induction bs generalizing k with
  | nil => rfl
  | cons b rest ih => simp [xorStream, ih]

@[simp] theorem sextetsOf_length (b0 b1 b2 : Byte) : (sextetsOf b0 b1 b2).length = 4 := rfl

@[simp] theorem fieldValues_length (f : Vector Word 18) : (fieldValues f).length = 18 := by simp [fieldValues]

/-- The valid packed bytes never reach beyond PBUF. -/
theorem State.pbufValid_length (s : State) : s.pbufValid.length = min s.plen.toNat 43 := by
  simp [State.pbufValid, Config.packedLen]

/-- The valid obfuscated bytes never reach beyond OBUF. -/
theorem State.obufValid_length (s : State) : s.obufValid.length = min s.olen.toNat 45 := by
  simp [State.obufValid, Config.obfLen]

theorem packOp_eq (s : State) :
    packOp s = { s with mem := s.mem.writeBytes 256 (packFields Config.widths (fieldValues s.f)), plen := 43 } := rfl

theorem unpackOp_eq (s : State) : unpackOp s = { s with f := fieldFileOf s.pbufValid } := rfl

theorem refreshOp_eq (s : State) : refreshOp s = { s with f := refreshFields s.f s.a } := rfl

theorem obfOp_eq (s : State) :
    obfOp s = { s with hacc := hash32 s.pbufValid, key := keyAfter ((hash8 s.pbufValid).setWidth 32) s.pbufValid.length,
                       olen := BitVec.ofNat 32 (s.plen.toNat + 2), mem := s.mem.writeBytes 320 (obfuscate s.pbufValid) } := rfl

theorem b64Op_eq (s : State) :
    b64Op s = { s with tlen := BitVec.ofNat 32 (4 * ((s.olen.toNat + 2) / 3)),
                       mem := s.mem.writeBytes 384 ((b64encode s.obufValid).map asciiCode) } := rfl

/-- Everything a command can do: one of eleven changes of state. -/
theorem exec_cases (i : Instr) (s t : State) (h : exec i s = .next t) :
    (i = .nop ∧ t = s) ∨ (i = .init ∧ t = { s with f := initFields s.a[0] s.hacc }) ∨ (i = .refresh ∧ t = refreshOp s) ∨
    (i = .pack ∧ t = packOp s) ∨ (i = .unpack ∧ t = unpackOp s) ∨ (i = .hclr ∧ t = { s with hacc := 0 }) ∨
    (∃ b, i = .hupd b ∧ t = { s with hacc := haccUpdate s.hacc b }) ∨ (i = .hbuf ∧ t = { s with hacc := hash32 s.pbufValid }) ∨
    (i = .obf ∧ t = obfOp s) ∨ (i = .b64 ∧ t = b64Op s) ∨ (i = .emit ∧ t = b64Op (obfOp (packOp (refreshOp s)))) := by
  cases i <;> simp only [exec, execNop, execInit, execRefresh, execPack, execUnpack, execHclr, execHupd, execHbuf, execObf,
    execB64, execEmit, State.setF, State.setHacc, Host.Outcome.next.injEq] at h <;> subst h <;> simp

end Sys2Proof.Machine
end

