-- ==== Sys2Proof/Laws/Operands.lean ====
section
/-! SUPPORT. The register map in both directions, and what a register write can do. -/

namespace Sys2Proof.Machine

theorem regAt_number (r : Reg) : regAt r.number = some r := by
  cases r with
  | a j => revert j; decide
  | f i => revert i; decide
  | w i => revert i; decide
  | pbuf k => revert k; decide
  | obuf k => revert k; decide
  | tbuf k => revert k; decide
  | _ => rfl

theorem rowIndex_eq_some (base count n : Nat) (k : Fin count) : rowIndex base count n = some k ↔ base + k = n := by
  obtain ⟨k, hk⟩ := k
  unfold rowIndex
  split
  · simp only [Option.some.injEq, Fin.mk.injEq]; omega
  · simp only [reduceCtorEq, false_iff]; omega

theorem number_of_plainRegs : ∀ n < 8, ∀ r, plainRegs[n]? = some r → r.number = n := by
  intro n hn r h
  interval_cases n <;> cases h <;> rfl

theorem number_of_regAt (n : Nat) (r : Reg) (h : regAt n = some r) : r.number = n := by
  simp only [regAt, Option.or_eq_some_iff, Option.map_eq_some_iff, rowIndex_eq_some] at h
  rcases h with h | ⟨-, ⟨k, h, rfl⟩ | ⟨-, ⟨k, h, rfl⟩ | ⟨-, ⟨k, h, rfl⟩ | ⟨-, ⟨k, h, rfl⟩ | ⟨-, ⟨k, h, rfl⟩ | ⟨-, ⟨k, h, rfl⟩⟩⟩⟩⟩⟩⟩
  · exact number_of_plainRegs n (by simpa [plainRegs] using (List.getElem?_eq_some_iff.mp h).1) r h
  all_goals exact h

theorem Reg.number_lt (r : Reg) : r.number < 2 ^ 32 := by
  cases r <;> simp only [Reg.number, Config.pbufBase, Config.obufBase, Config.tbufBase] <;> omega

theorem Reg.number_inj (r r' : Reg) (h : r.number = r'.number) : r = r' := by
  simpa [h, regAt_number] using (regAt_number r).symm

theorem regOf_ofNat_number (r : Reg) : regOf (BitVec.ofNat 32 r.number) = some r := by
  rw [regOf, BitVec.toNat_ofNat, Nat.mod_eq_of_lt r.number_lt, regAt_number]

theorem regOf_eq_some (n : Word) (r : Reg) : regOf n = some r ↔ n = BitVec.ofNat 32 r.number := by
  constructor
  · intro h
    rw [number_of_regAt _ _ h, BitVec.ofNat_toNat, BitVec.setWidth_eq]
  · rintro rfl
    exact regOf_ofNat_number r

theorem regOf_eq_cmd (n : Word) (h : regOf n = some .cmd) : n = 0 := (regOf_eq_some n .cmd).mp h

/-- A register write never touches the fault registers, KEY, TLEN or the host's side. -/
theorem State.regWrite_frame (r : Reg) (v : Word) (s : State) :
    (s.regWrite r v).fcode = s.fcode ∧ (s.regWrite r v).finfo = s.finfo ∧ (s.regWrite r v).key = s.key ∧
    (s.regWrite r v).tlen = s.tlen ∧ (s.regWrite r v).pending = s.pending ∧ (s.regWrite r v).pc = s.pc ∧
    (s.regWrite r v).delivered = s.delivered := by
  cases r <;> exact ⟨rfl, rfl, rfl, rfl, rfl, rfl, rfl⟩

end Sys2Proof.Machine
end

