-- ==== Sys2Proof/Laws/PerInstr.lean ====
section
/-! SUPPORT. Facts stated per constructor of `Instr`: the fields of a command's word (30_encoding R81, R82). -/

namespace Sys2Proof.Laws.WordFields

/-- The word of a well-formed command carries its opcode in bits 7 to 0, its immediate (0 for format C0) in bits 15 to 8, and
zero above; its opcode is at most 0x0A. -/
def Statement (i : Instr) : Prop :=
  i.wellFormed = true →
    opcodeField (encode i) = i.opcode ∧ imm8Field (encode i) = i.immediate ∧ zero16Field (encode i) = 0 ∧ i.opcode ≤ 0x0A

theorem nop : Statement .nop := by intro _; decide
theorem init : Statement .init := by intro _; decide
theorem refresh : Statement .refresh := by intro _; decide
theorem pack : Statement .pack := by intro _; decide
theorem unpack : Statement .unpack := by intro _; decide
theorem hclr : Statement .hclr := by intro _; decide

theorem hupd (b : Nat) : Statement (.hupd b) := by
  intro h
  simp only [Instr.wellFormed, decide_eq_true_eq] at h
  simp only [opcodeField, imm8Field, zero16Field, encode, Instr.opcode, Instr.immediate, BitVec.extractLsb'_toNat,
    BitVec.toNat_ofNat, Nat.shiftLeft_eq, Nat.shiftRight_eq_div_pow]
  omega

theorem hbuf : Statement .hbuf := by intro _; decide
theorem obf : Statement .obf := by intro _; decide
theorem b64 : Statement .b64 := by intro _; decide
theorem emit : Statement .emit := by intro _; decide

end Sys2Proof.Laws.WordFields
end

