-- ==== Sys2Proof/Laws/Port.lean ====
section
/-! SUPPORT. What the shared operations of the port can do, said once: fault entry, one host operation, one step. -/

namespace Sys2Proof.Machine

theorem State.halted_iff (s : State) : s.halted = true ↔ s.fcode ≠ 0 := by simp [State.halted]

theorem State.not_halted_iff (s : State) : s.halted = false ↔ s.fcode = 0 := by simp [State.halted]

theorem State.raise_of_halted (s : State) (p : PortFault) (n : Word) (h : s.halted = true) : s.raise p n = s := by
  simp [State.raise, h]

theorem State.raise_of_running (s : State) (p : PortFault) (n : Word) (h : s.halted = false) :
    s.raise p n = s.setFault p.code n := by
  simp [State.raise, h]

theorem State.nextOp_cons (s : State) (op : HostOp) (rest : List HostOp) (h : s.pending = op :: rest) :
    s.nextOp = some (op, { s with pending := rest, pc := s.pc + 1 }) := by
  simp [State.nextOp, h]

/-- Everything one host operation can do. -/
theorem perform_cases (op : HostOp) (s t : State) (h : perform op s = .next t) :
    (op = .reset ∧ t = s.resetCore) ∨
    (∃ n r, op = .read n ∧ regOf n = some r ∧ r.readable = true ∧ t = s.deliver (s.regValue r)) ∨
    (∃ n, op = .read n ∧ (∀ r, regOf n = some r → r.readable = false) ∧ t = (s.raise .badReg n).deliver 0) ∨
    (∃ n v, op = .write n v ∧ s.halted = true ∧ t = s) ∨
    (∃ v i, op = .write 0 v ∧ s.halted = false ∧ Sys2Proof.decode v = .ok i ∧ exec i s = .next t) ∨
    (∃ v e, op = .write 0 v ∧ s.halted = false ∧ Sys2Proof.decode v = .error e ∧ t = s.setFault 1 v) ∨
    (∃ n v r, op = .write n v ∧ s.halted = false ∧ regOf n = some r ∧ r ≠ .cmd ∧ r.writable = true ∧ r.legalData v = true ∧
      t = s.regWrite r v) ∨
    (∃ n v r, op = .write n v ∧ s.halted = false ∧ regOf n = some r ∧ r.writable = true ∧ r.legalData v = false ∧
      t = s.setFault 3 n) ∨
    (∃ n v, op = .write n v ∧ s.halted = false ∧ (∀ r, regOf n = some r → r.writable = false) ∧ t = s.setFault 2 n) := by
  cases op with
  | reset => simp only [perform, Host.Outcome.next.injEq] at h; exact .inl ⟨rfl, h.symm⟩
  | read n =>
    simp only [perform, hostRead, Host.Outcome.next.injEq] at h
    cases hr : regOf n with
    | none => simp only [hr] at h; exact .inr (.inr (.inl ⟨n, rfl, by simp [hr], h.symm⟩))
    | some r =>
      simp only [hr] at h
      cases hd : r.readable with
      | true => simp only [hd, ite_true] at h; exact .inr (.inl ⟨n, r, rfl, hr, hd, h.symm⟩)
      | false =>
        simp only [hd, Bool.false_eq_true, ite_false] at h
        exact .inr (.inr (.inl ⟨n, rfl, by simp [hr, hd], h.symm⟩))
  | write n v =>
    simp only [perform, hostWrite] at h
    cases hh : s.halted with
    | true =>
      simp only [hh, ite_true, Host.Outcome.next.injEq] at h
      exact .inr (.inr (.inr (.inl ⟨n, v, rfl, rfl, h.symm⟩)))
    | false =>
      simp only [hh, Bool.false_eq_true, ite_false] at h
      cases hr : regOf n with
      | none =>
        simp only [hr, State.raise_of_running _ _ _ hh, Host.Outcome.next.injEq] at h
        exact .inr (.inr (.inr (.inr (.inr (.inr (.inr (.inr ⟨n, v, rfl, rfl, by simp [hr], h.symm⟩)))))))
      | some r =>
        simp only [hr] at h
        cases hw : r.writable with
        | false =>
          simp only [hw, Bool.false_eq_true, ite_false, State.raise_of_running _ _ _ hh, Host.Outcome.next.injEq] at h
          exact .inr (.inr (.inr (.inr (.inr (.inr (.inr (.inr ⟨n, v, rfl, rfl, by simp [hr, hw], h.symm⟩)))))))
        | true =>
          simp only [hw, ite_true] at h
          by_cases hc : r = .cmd
          · subst hc
            simp only [ite_true, executeWord] at h
            have hn := regOf_eq_cmd n hr
            subst hn
            cases hd : Sys2Proof.decode v with
            | ok i => simp only [hd] at h; exact .inr (.inr (.inr (.inr (.inl ⟨v, i, rfl, rfl, hd, h⟩))))
            | error e =>
              simp only [hd, State.raise_of_running _ _ _ hh, Host.Outcome.next.injEq] at h
              exact .inr (.inr (.inr (.inr (.inr (.inl ⟨v, e, rfl, rfl, hd, h.symm⟩)))))
          · simp only [hc, ite_false] at h
            cases hl : r.legalData v with
            | true =>
              simp only [hl, ite_true, Host.Outcome.next.injEq] at h
              exact .inr (.inr (.inr (.inr (.inr (.inr (.inl ⟨n, v, r, rfl, rfl, hr, hc, hw, hl, h.symm⟩))))))
            | false =>
              simp only [hl, Bool.false_eq_true, ite_false, State.raise_of_running _ _ _ hh, Host.Outcome.next.injEq] at h
              exact .inr (.inr (.inr (.inr (.inr (.inr (.inr (.inl ⟨n, v, r, rfl, rfl, hr, hw, hl, h.symm⟩)))))))

/-- Everything one step can do: nothing, or one host operation with its line taken. -/
theorem step_cases (s t : State) (h : step s = .next t) :
    (s.pending = [] ∧ t = s) ∨
    ∃ op rest, s.pending = op :: rest ∧ perform op { s with pending := rest, pc := s.pc + 1 } = .next t := by
  unfold step at h
  cases hp : s.pending with
  | nil => simp only [State.nextOp, hp, Host.Outcome.next.injEq] at h; exact .inl ⟨rfl, h.symm⟩
  | cons op rest => rw [State.nextOp_cons s op rest hp] at h; exact .inr ⟨op, rest, rfl, h⟩

/-- A list of operations whose first answers a next state goes on from there. -/
theorem performAll_cons (op : HostOp) (rest : List HostOp) (s t : State) (h : perform op s = .next t) :
    performAll (op :: rest) s = performAll rest t := by simp [performAll, h]

/-- Lists of operations compose. -/
theorem performAll_append (ops more : List HostOp) (s t : State) (h : performAll ops s = .next t) :
    performAll (ops ++ more) s = performAll more t := by
  induction ops generalizing s with
  | nil => simp only [performAll, Host.Outcome.next.injEq] at h; subst h; rfl
  | cons op rest ih =>
    simp only [performAll, List.cons_append] at h ⊢
    cases hp : perform op s with
    | next u => rw [hp] at h; exact ih u h
    | fault r => rw [hp] at h; cases h
    | refused r => rw [hp] at h; cases h

end Sys2Proof.Machine
end

