-- ==== Sys2Proof/Tests/Slice0.lean ====
section
/-! SUPPORT. The model's own tests: what WellFormed refuses, every command's word, small single steps with results taken from
95_test_vectors (V10 to V60), assembled lines, and for every statement with hypotheses one or more inputs that meet them. -/

namespace Sys2Proof.Tests

open Sys2Proof.Machine

/-- An outcome is a next state with the property. -/
def endsIn (o : Host.Outcome State Fault Refusal) (p : State → Bool) : Bool :=
  match o with
  | .next t => p t
  | .fault _ => false
  | .refused _ => false

/-- One step that performs `op` from `s`. -/
def oneStep (op : HostOp) (s : State) (p : State → Bool) : Bool := endsIn (step { s with pending := [op] }) p

/-- Reset, with bytes at rising numbers from a base. -/
def withBytes (base : Nat) (bs : List Byte) (s : State) : State := { s with mem := s.mem.writeBytes base bs }

/-- The field file after INIT of V50. -/
def initV50 : Vector Word 18 := #v[0, 0, 0, 88, 0, 11, 0, 0, 0, 0, 0, 0, 0, 2848, 0, 0, 0, 3]

/-- The field file of V11. -/
def fieldsV11 : Vector Word 18 :=
  #v[0x11223344, 0x55667788, 0x99AABBCC, 0xDDEEFF00, 0xA1, 0xA2, 0xA3, 0xB1B2B3, 0xC1C2, 0xC3C4, 0xC5C6, 0xC7C8, 0xC9CA,
     0xCBCC, 0xCDCE, 0xD1D2D3D4, 0xE1E2, 0xF1]

/-- The packed buffer of V11. -/
def packedV11 : List Byte :=
  [0x11, 0x22, 0x33, 0x44, 0x55, 0x66, 0x77, 0x88, 0x99, 0xAA, 0xBB, 0xCC, 0xDD, 0xEE, 0xFF, 0x00, 0xA1, 0xA2, 0xA3, 0xB1, 0xB2] ++
  [0xB3, 0xC1, 0xC2, 0xC3, 0xC4, 0xC5, 0xC6, 0xC7, 0xC8, 0xC9, 0xCA, 0xCB, 0xCC, 0xCD, 0xCE, 0xD1, 0xD2, 0xD3, 0xD4, 0xE1, 0xE2] ++
  [0xF1]

/-- The operands of V50. -/
def argsV50 : Vector Word 8 := #v[1000, 1000, 0, 0, 0, 0, 0, 0]

/-- A CORE halted by an illegal word. -/
def haltedCore : State := { State.reset with fcode := 1, finfo := 0xB, hacc := 7 }

/-! WellFormed: the immediate of HUPD is a byte, its one check. -/

theorem test_wellFormed_hupd_last_byte : (Instr.hupd 255).wellFormed = true := by decide
theorem test_illFormed_hupd_256 : (Instr.hupd 256).wellFormed = false := by decide

/-! Decoding, each word written out from 30_encoding R84: opcode in bits 7 to 0, immediate in bits 15 to 8. -/

theorem test_decode_nop : decode 0b00000000000000000000000000000000 = .ok .nop := by decide
theorem test_decode_init : decode 0b00000000000000000000000000000001 = .ok .init := by decide
theorem test_decode_refresh : decode 0b00000000000000000000000000000010 = .ok .refresh := by decide
theorem test_decode_pack : decode 0b00000000000000000000000000000011 = .ok .pack := by decide
theorem test_decode_unpack : decode 0b00000000000000000000000000000100 = .ok .unpack := by decide
theorem test_decode_hclr : decode 0b00000000000000000000000000000101 = .ok .hclr := by decide
theorem test_decode_hupd : decode 0b00000000000000000101100000000110 = .ok (.hupd 0x58) := by decide
theorem test_decode_hupd_last : decode 0b00000000000000001111111100000110 = .ok (.hupd 0xFF) := by decide
theorem test_decode_hbuf : decode 0b00000000000000000000000000000111 = .ok .hbuf := by decide
theorem test_decode_obf : decode 0b00000000000000000000000000001000 = .ok .obf := by decide
theorem test_decode_b64 : decode 0b00000000000000000000000000001001 = .ok .b64 := by decide
theorem test_decode_emit : decode 0b00000000000000000000000000001010 = .ok .emit := by decide

theorem test_encode_hupd : encode (.hupd 0x42) = 0x00004206 := by decide
theorem test_encode_emit : encode .emit = 0x0000000A := by decide

/-- R85's three kinds of illegal word, at their boundaries. -/
theorem test_illegal_words :
    decode 0x00010000 = .error .zero16NotZero ∧ decode 0x80000006 = .error .zero16NotZero ∧
    decode 0x0000000B = .error .opcodeUnmapped ∧ decode 0x000000FF = .error .opcodeUnmapped ∧
    decode 0x00000103 = .error .strayImmediate ∧ decode 0x0000FF05 = .error .strayImmediate := by decide

theorem test_decodeTableWord :
    decodeTableWord 32 0x00005806 = some (.hupd 0x58) ∧ decodeTableWord 32 0x0000000B = none ∧
    decodeTableWord 32 0x100000003 = some .pack ∧ decodeTableWord 8 0x00000103 = some .pack := by decide

/-- The word placed by `withFetchWord` is run by the very next step: HUPD 0x58 after reset. -/
theorem test_withFetchWord :
    endsIn (step (State.reset.withFetchWord 32 0x00005806)) (fun t => t.hacc == 0x58 && t.pc == 1 && t.pending == []) = true := by
  decide

/-! The commands, one step each. -/

theorem test_nop : oneStep (cmdLine .nop) { State.reset with hacc := 9 } (fun t => t.hacc == 9 && t.fcode == 0) = true := by decide

/-- V50, F after INIT. -/
theorem test_init : oneStep (cmdLine .init) { State.reset with hacc := 0x58 } (fun t => t.f == initV50) = true := by decide

/-- V53: INIT sets the counter to 0 from any value, and takes the nonce from A[0]. -/
theorem test_init_again :
    oneStep (cmdLine .init) { State.reset with f := fieldsV11, a := #v[0xDEADBEEF, 1, 2, 3, 4, 5, 6, 7] }
      (fun t => t.f[0] == 0xDEADBEEF && t.f[16] == 0 && t.f[14] == 0 && t.f[13] == 2848) = true := by decide

/-- V53: the counter wraps at 65536; V50: the operands' places. -/
theorem test_refresh_wraps :
    oneStep (cmdLine .refresh) { State.reset with f := initV50.set 16 65535, a := #v[1, 2, 3, 4, 5, 6, 7, 8] }
      (fun t => t.f == #v[0, 1, 2, 88, 0, 11, 0, 3, 4, 5, 6, 7, 8, 2848, 0, 0, 0, 3]) = true := by decide

/-- V53: 0x12345 gives 0x2346. -/
theorem test_refresh_reduces :
    oneStep (cmdLine .refresh) { State.reset with f := initV50.set 16 0x12345 } (fun t => t.f[16] == 0x2346) = true := by decide

/-- V11. -/
theorem test_pack : oneStep (cmdLine .pack) { State.reset with f := fieldsV11 }
    (fun t => t.mem.bytes 256 43 == packedV11 && t.plen == 43 && t.mem.read 299 == 0) = true := by decide +kernel

/-- V12: truncation, not saturation, and the registers keep their values. -/
theorem test_pack_truncates :
    oneStep (cmdLine .pack) { State.reset with f := ((State.reset.f.set 4 0x1FF).set 7 0x01020304).set 16 0x12345 }
      (fun t => t.mem.read (256 + 16) == 0xFF && t.mem.bytes (256 + 19) 3 == [2, 3, 4] && t.mem.bytes (256 + 40) 2 == [0x23, 0x45] &&
        t.f[7] == 0x01020304) = true := by decide +kernel

/-- V13, n = 43. -/
theorem test_unpack : oneStep (cmdLine .unpack) { withBytes 256 packedV11 State.reset with plen := 43 }
    (fun t => t.f == fieldsV11) = true := by decide +kernel

/-- V13, n = 21 (D35): the cut field keeps its present bytes as the most significant ones. -/
theorem test_unpack_short : oneStep (cmdLine .unpack) { withBytes 256 packedV11 State.reset with plen := 21 }
    (fun t => t.f == #v[0x11223344, 0x55667788, 0x99AABBCC, 0xDDEEFF00, 0xA1, 0xA2, 0xA3, 0xB1B200, 0, 0, 0, 0, 0, 0, 0, 0, 0, 0])
    = true := by decide +kernel

theorem test_hclr : oneStep (cmdLine .hclr) { State.reset with hacc := 0xFFFFFFFF } (fun t => t.hacc == 0) = true := by decide

/-- V22. -/
theorem test_hupd_wraps : oneStep (cmdLine (.hupd 0xFF)) { State.reset with hacc := 0xFFFFFFFF }
    (fun t => t.hacc == 0x000000E0) = true := by decide

/-- V22: a zero byte still multiplies. -/
theorem test_hupd_zero : oneStep (cmdLine (.hupd 0)) { State.reset with hacc := 1 } (fun t => t.hacc == 0x1F) = true := by decide

/-- V20, FF x 8: the hash past 32 bits. -/
theorem test_hbuf : oneStep (cmdLine .hbuf) { withBytes 256 (List.replicate 8 0xFF) State.reset with plen := 8, hacc := 5 }
    (fun t => t.hacc == 0xEC45AF80) = true := by decide +kernel

/-- V22: PLEN = 0 gives 0 whatever PBUF holds. -/
theorem test_hbuf_empty : oneStep (cmdLine .hbuf) { withBytes 256 [0x41] State.reset with hacc := 5 } (fun t => t.hacc == 0) = true := by
  decide +kernel

/-- V32, FF FF FF FF. -/
theorem test_obf : oneStep (cmdLine .obf) { withBytes 256 [0xFF, 0xFF, 0xFF, 0xFF] State.reset with plen := 4 }
    (fun t => t.mem.bytes 320 7 == [0x03, 0xC0, 0x3F, 0x40, 0xBD, 0xC6, 0] && t.olen == 6 && t.hacc == 0x0077C7C0 &&
      t.key == 0x2A6AC7D4) = true := by decide +kernel

/-- V32, PLEN = 0: the header alone, and no key update. -/
theorem test_obf_empty : oneStep (cmdLine .obf) { State.reset with key := 9, hacc := 9 }
    (fun t => t.mem.bytes 320 2 == [3, 0] && t.olen == 2 && t.hacc == 0 && t.key == 0) = true := by decide +kernel

/-- V41: 03 21 60 5E gives AyFgXgAA; the bytes at OLEN and beyond, not 0 here, are not read. -/
theorem test_b64_short_group :
    oneStep (cmdLine .b64) { withBytes 320 [0x03, 0x21, 0x60, 0x5E, 0xFF, 0xFF] State.reset with olen := 4 }
      (fun t => t.mem.bytes 384 9 == [0x41, 0x79, 0x46, 0x67, 0x58, 0x67, 0x41, 0x41, 0] && t.tlen == 8) = true := by decide +kernel

/-- V40 (43_base64 R167): FF FF gives __8A. -/
theorem test_b64_last_characters : b64encode [0xFF, 0xFF] = ['_', '_', '8', 'A'] := by decide +kernel

/-- V50: the token, the lengths and the registers of the first emission. -/
theorem test_emit : oneStep (cmdLine .emit) { State.reset with f := initV50, a := argsV50 }
    (fun t => (t.mem.bytes 384 60).map (fun b => Char.ofNat b.toNat) ==
        "AwAA_4J5FMM1tWjHKWn8C1690ITSieRThm04V3qRzJuu9as_Ipm049Z9CObJ".toList &&
      t.hacc == 0x44B69400 && t.key == 0xBFF000A1 && t.plen == 43 && t.olen == 45 && t.tlen == 60 && t.f[16] == 1) = true := by
  decide +kernel

/-- V54: EMIT straight after reset. -/
theorem test_emit_after_reset : oneStep (cmdLine .emit) State.reset
    (fun t => (t.mem.bytes 384 60).map (fun b => Char.ofNat b.toNat) ==
        "Ax8fIpm049Z9COfKoZwr_gVwr3KphHMmjdh3GrFsu04VQD_CuVQDdp2oB2vB".toList &&
      t.hacc == 0x1F && t.key == 0xC03A0E3C) = true := by decide +kernel

/-! The port: V60, each from the reset state. -/

theorem test_port_illegal_commands :
    oneStep (.write 0 0x0B) State.reset (fun t => t.fcode == 1 && t.finfo == 0x0B) = true ∧
    oneStep (.write 0 0x103) State.reset (fun t => t.fcode == 1 && t.finfo == 0x103 && t.plen == 0) = true ∧
    oneStep (.write 0 0x10000) State.reset (fun t => t.fcode == 1 && t.finfo == 0x10000) = true ∧
    oneStep (.write 0 0xFF06) State.reset (fun t => t.fcode == 0 && t.hacc == 0xFF) = true := by decide +kernel

theorem test_port_bad_registers :
    oneStep (.read 0x22) State.reset (fun t => t.fcode == 2 && t.finfo == 0x22 && t.delivered == [0]) = true ∧
    oneStep (.read 0) State.reset (fun t => t.fcode == 2 && t.finfo == 0 && t.delivered == [0]) = true ∧
    oneStep (.write 4 1) State.reset (fun t => t.fcode == 2 && t.finfo == 4 && t.key == 0) = true ∧
    oneStep (.write 0x180 0x41) State.reset (fun t => t.fcode == 2 && t.finfo == 0x180 && t.mem == []) = true := by decide +kernel

theorem test_port_bad_values :
    oneStep (.write 5 44) State.reset (fun t => t.fcode == 3 && t.finfo == 5 && t.plen == 0) = true ∧
    oneStep (.write 5 43) State.reset (fun t => t.fcode == 0 && t.plen == 43) = true ∧
    oneStep (.write 6 46) State.reset (fun t => t.fcode == 3 && t.finfo == 6 && t.olen == 0) = true ∧
    oneStep (.write 0x100 256) State.reset (fun t => t.fcode == 3 && t.finfo == 0x100 && t.mem == []) = true ∧
    oneStep (.write 0x100 255) State.reset (fun t => t.fcode == 0 && t.mem == [(0x100, 0xFF)]) = true ∧
    oneStep (.write 0x20 0x12345) State.reset (fun t => t.fcode == 0 && t.f[16] == 0x12345) = true := by decide +kernel

/-- Script 4: halted, a write and a command are discarded, a mapped register reads, an unmapped number reads 0. -/
theorem test_port_halted :
    oneStep (.write 8 5) haltedCore (fun t => t.a == haltedCore.a && t.finfo == 0xB) = true ∧
    oneStep (cmdLine .emit) haltedCore (fun t => t.tlen == 0 && t.hacc == 7) = true ∧
    oneStep (.read 2) haltedCore (fun t => t.delivered == [0xB]) = true ∧
    oneStep (.read 0x22) haltedCore (fun t => t.delivered == [0] && t.fcode == 1 && t.finfo == 0xB) = true ∧
    oneStep .reset haltedCore (fun t => t.fcode == 0 && t.hacc == 0) = true := by decide +kernel

/-! The assembler: the lines of Scripts 1 and 4 with the encodings the spec prints, and the pseudo-instructions of R91. -/

theorem test_assemble_commands :
    assembleLine "reset".toList = some [.reset] ∧ assembleLine "hclr".toList = some [.write 0 0x00000005] ∧
    assembleLine "  HUPD 0x58 ; one byte".toList = some [.write 0 0x00005806] ∧ assembleLine "hupd 256".toList = none ∧
    assembleLine "emit".toList = some [.write 0 0x0000000A] := by decide +kernel

theorem test_assemble_accesses :
    assembleLine "wr A[0], 1000".toList = some [.write 0x008 0x000003E8] ∧ assembleLine "rd TBUF[59] ; = 0x4A".toList = some [.read 0x1BB] ∧
    assembleLine "wr CMD, 0x0000000B".toList = some [.write 0 0x0B] ∧ assembleLine "rd 0x022".toList = some [.read 0x22] ∧
    assembleLine "wr 0x123, 1".toList = some [.write 0x123 1] ∧ assembleLine "rd TBUF[60]".toList = none := by decide +kernel

theorem test_assemble_pseudo :
    assembleLine "hash \"X;\" ; two bytes".toList = some [.write 0 5, .write 0 0x5806, .write 0 0x3B06] ∧
    assembleLine "args 1000, 1000, 0, 0, 0, 0, 0, 0x10".toList = some
      [.write 8 1000, .write 9 1000, .write 10 0, .write 11 0, .write 12 0, .write 13 0, .write 14 0, .write 15 16] ∧
    (assembleLine "token".toList).map List.length = some 60 := by decide +kernel

theorem test_bus_triple : (cmdLine (.hupd 0x58)).toBus = ⟨.write, 0x000, 0x00005806⟩ := by decide

/-! Inputs that meet the hypotheses of the statements, by statement; several at the boundaries where a statement has clauses. -/

theorem wit_OnlyResetClearsAFault :
    haltedCore.fcode ≠ 0 ∧ HostOp.read 1 ≠ .reset ∧ HostOp.keepsPortDuty (.read 0x22) = false ∧
    HostOp.keepsPortDuty (.write 4 1) = false := by decide

theorem wit_HaltedStateFreezesTheCore :
    haltedCore.fcode ≠ 0 ∧ (regOf 3 = some .hacc ∧ (3 : Word) ≠ 0) ∧ regOf 444 = none ∧ regOf 0 = some .cmd := by decide

theorem wit_HaltedCoreStaysFrozenAlongScripts :
    haltedCore.fcode ≠ 0 ∧ HostOp.reset ∉ [cmdLine .emit, .read 2, .write 8 5] := by decide

theorem wit_IllegalWordsFault :
    State.reset.fcode = 0 ∧ (0x00010000 : Word).toNat / 65536 ≠ 0 ∧ 0x0A < (0x0B : Word).toNat % 256 ∧
    ((0x103 : Word).toNat % 256 ≠ 0x06 ∧ (0x103 : Word).toNat / 256 % 256 ≠ 0) ∧ decode 0xFF06 = .ok (.hupd 255) := by decide

theorem wit_DecodeAgreesWithTheOpcodeTable : decode 0xFF06 = .ok (.hupd 255) ∧ decode 0x0A = .ok .emit := by decide

theorem wit_DecodeOfEncodeIsTheCommand : (Instr.hupd 255).wellFormed = true ∧ Instr.emit.wellFormed = true := by decide

theorem wit_EncodeOfDecodeIsTheWord : decode 0x4206 = .ok (.hupd 0x42) := by decide

theorem wit_StepRunsTheDecodedCommand :
    let s : State := { State.reset with pending := [.write 0 0x5806, .read 3] }
    s.pending = .write 0 0x5806 :: [.read 3] ∧ s.fcode = 0 ∧ decode 0x5806 = .ok (.hupd 0x58) := by decide

theorem wit_StepPerformsOneHostOperation :
    ({ State.reset with pending := [.reset, .read 3] } : State).pending = .reset :: [.read 3] ∧ State.reset.pending = [] := by decide

/-- The first and last number of every row of the register map, and of every gap between rows (HostReadFollowsTheMap and
HostWriteFollowsTheMap have a clause for each). -/
theorem wit_HostMap_numbers :
    ((8 : Word).toNat = 8 + (0 : Fin 8) ∧ (15 : Word).toNat = 8 + (7 : Fin 8)) ∧
    ((16 : Word).toNat = 16 + (0 : Fin 18) ∧ (33 : Word).toNat = 16 + (17 : Fin 18)) ∧
    ((48 : Word).toNat = 48 + (0 : Fin 18) ∧ (65 : Word).toNat = 48 + (17 : Fin 18)) ∧
    [0, 1, 2, 3, 4, 5, 6, 7, 8, 15, 16, 33, 48, 65, 256, 298, 320, 364, 384, 443].all (fun n => (regAt n).isSome) = true ∧
    [34, 47, 66, 255, 299, 319, 365, 383, 444, 0xFFFFFFFF].all (fun n => (regAt n).isNone) = true := by decide +kernel

/-- HostReadFollowsTheMap at those numbers, running and halted: no two clauses meet on one of them. -/
theorem wit_HostReadFollowsTheMap :
    [1, 7, 8, 15, 16, 33, 48, 65, 256, 298, 320, 364, 384, 443].all (fun n => oneStep (.read n) State.reset (fun t => t.fcode == 0) &&
      oneStep (.read n) haltedCore (fun t => t.finfo == 0xB)) = true ∧
    [0, 34, 47, 66, 255, 299, 319, 365, 383, 444, 0xFFFFFFFF].all (fun n =>
      oneStep (.read n) State.reset (fun t => t.fcode == 2 && t.finfo == n && t.delivered == [0]) &&
      oneStep (.read n) haltedCore (fun t => t.finfo == 0xB && t.delivered == [0])) = true := by decide +kernel

/-- HostWriteFollowsTheMap clause by clause, at boundary numbers and data. -/
theorem wit_HostWriteFollowsTheMap :
    haltedCore.fcode ≠ 0 ∧ State.reset.fcode = 0 ∧ decode 0xFF06 = .ok (.hupd 255) ∧ decode 0x0B = .error .opcodeUnmapped ∧
    oneStep (.write 3 0xFFFFFFFF) State.reset (fun t => t.hacc == 0xFFFFFFFF) = true ∧
    [(5, 43), (6, 45), (8, 1), (15, 1), (16, 1), (33, 1), (256, 255), (298, 255), (320, 255), (364, 255)].all (fun p =>
      oneStep (.write p.1 p.2) State.reset (fun t => t.fcode == 0 && t != { State.reset with pc := 1 })) = true ∧
    [(5, 44), (6, 46), (256, 256), (298, 256), (320, 256), (364, 256)].all (fun p =>
      oneStep (.write p.1 p.2) State.reset (fun t => t.fcode == 3 && t.finfo == p.1)) = true ∧
    [1, 2, 4, 7, 34, 47, 48, 65, 66, 255, 299, 319, 365, 383, 384, 443, 444].all (fun n =>
      oneStep (.write n 0) State.reset (fun t => t.fcode == 2 && t.finfo == n)) = true := by decide +kernel

theorem wit_WriteThenReadReturnsTheDatum :
    State.reset.fcode = 0 ∧ regOf 298 = some (.pbuf 42) ∧ Reg.pbuf 42 ≠ .cmd ∧ (Reg.pbuf 42).writable = true ∧
    (Reg.pbuf 42).legalData 255 = true := by decide

theorem wit_FaultsExactlyWhenThePortDutyIsBroken :
    State.reset.fcode = 0 ∧ HostOp.keepsPortDuty (.write 5 43) = true ∧ HostOp.keepsPortDuty (.write 5 44) = false ∧
    HostOp.keepsPortDuty (.write 0 0x0B) = false ∧ HostOp.keepsPortDuty (.read 443) = true := by decide

theorem wit_FaultEntryWritesOnlyFcodeAndFinfo :
    State.reset.fcode = 0 ∧
    endsIn (perform (.write 0 0x0B) State.reset) (fun t => t.fcode == 1) = true ∧
    endsIn (perform (.read 444) State.reset) (fun t => t.fcode == 2) = true ∧
    endsIn (perform (.write 384 0) State.reset) (fun t => t.fcode == 2) = true ∧
    endsIn (perform (.write 364 256) State.reset) (fun t => t.fcode == 3) = true := by decide +kernel

theorem wit_InitSetsTheFieldFile : ((14 : Fin 18) : Nat) ∉ [0, 3, 5, 13, 17] := by decide

theorem wit_RefreshMutatesTheSubset : ((14 : Fin 18) : Nat) ∉ [1, 2, 7, 8, 9, 10, 11, 12, 15, 16] := by decide

theorem wit_FieldRegionsTileThePackedBuffer : 42 < 43 ∧ (0 : Nat) < widthRom 17 ∧ fieldOffset 17 + 0 = 42 := by decide

theorem wit_PackWritesEveryFieldBigEndian : 2 < widthRom 7 ∧ fieldOffset 7 + 2 = 21 ∧ 0 < widthRom 17 := by decide

theorem wit_PackTruncatesToTheWidths :
    let v := List.replicate 18 0xFF
    let v' := (List.replicate 18 0xFF).set 4 0x1FF
    v.length = 18 ∧ v'.length = 18 ∧
    ∀ i < 18, v'.getD i 0 % 2 ^ (8 * Config.widths.getD i 0) = v.getD i 0 % 2 ^ (8 * Config.widths.getD i 0) := by decide +kernel

theorem wit_CodecRoundTrips :
    (List.replicate 18 7).length = 18 ∧ packedV11.length = 43 ∧ (packedV11.take 21).length < 43 := by decide

theorem wit_PackAndUnpackCommandsRoundTrip :
    fieldsFit fieldsV11 = true ∧ ({ State.reset with plen := 43 } : State).plen = 43 := by decide +kernel

theorem wit_HupdStepsTheHash : 255 < 256 ∧ State.reset.fcode = 0 := by decide

theorem wit_HbufHashesTheValidBytes : ({ State.reset with plen := 43 } : State).plen.toNat ≤ 43 := by decide

theorem wit_ObfWritesHeaderAndPayload : ({ State.reset with plen := 43 } : State).plen.toNat ≤ 43 := by decide

theorem wit_EncodeGroupsOfThree : 1 < (([1, 2, 3, 4] : List Byte).length + 2) / 3 := by decide

theorem wit_EncodeForgetsTrailingZeros :
    ([1] : List Byte).length % 3 = 1 ∧ ([1, 2] : List Byte).length % 3 ≠ 0 := by decide

theorem wit_B64WritesTheToken : ({ State.reset with olen := 45 } : State).olen.toNat ≤ 45 := by decide

theorem wit_EmitRunsThePipeline : ({ State.reset with f := initV50, a := argsV50 } : State).fcode = 0 := by decide

theorem wit_KthEmissionCarriesK : State.reset.fcode = 0 ∧ 0 < 65536 := by decide

theorem wit_ConstantsPersist : Instr.emit ≠ .init ∧ Instr.emit ≠ .unpack := by decide

/-- A command that meets every "leaves it alone" premise, and numbers outside what EMIT, OBF (PLEN = 0) and B64 (OLEN = 1) write,
the first each of them leaves. -/
theorem wit_CommandsWriteOnlyTheirStorage :
    Instr.nop ≠ .init ∧ Instr.nop ≠ .refresh ∧ Instr.nop ≠ .unpack ∧ Instr.nop ≠ .emit ∧ Instr.nop ≠ .hclr ∧ Instr.nop ≠ .hbuf ∧
    Instr.nop ≠ .obf ∧ Instr.nop ≠ .pack ∧ Instr.nop ≠ .b64 ∧ Instr.nop ≠ .hupd 0 ∧
    (¬(256 ≤ 299 ∧ 299 ≤ 298) ∧ ¬(320 ≤ 299 ∧ 299 ≤ 364) ∧ ¬(384 ≤ 299 ∧ 299 ≤ 443)) ∧
    ¬(320 ≤ 322 ∧ 322 ≤ 364 ∧ 322 ≤ 320 + (State.reset.plen.toNat + 1)) ∧
    ¬(384 ≤ 388 ∧ 388 ≤ 443 ∧ 388 < 384 + 4 * ((({ State.reset with olen := 1 } : State).olen.toNat + 2) / 3)) := by decide

/-- Two states that agree on the valid bytes and differ in KEY and in a stale byte. -/
theorem wit_StaleBytesAndKeyAreNeverRead :
    let s : State := { withBytes 256 [0x41, 0x42] State.reset with plen := 2 }
    let t : State := { withBytes 256 [0x41, 0x42, 0x99] State.reset with plen := 2, key := 5 }
    s.f = t.f ∧ s.a = t.a ∧ s.hacc = t.hacc ∧ s.plen = t.plen ∧ s.olen = t.olen ∧ s.tlen = t.tlen ∧
    s.plen.toNat ≤ 43 ∧ s.olen.toNat ≤ 45 ∧ s.tlen.toNat ≤ 60 ∧
    (∀ k < s.plen.toNat, s.mem.read (256 + k) = t.mem.read (256 + k)) ∧
    (∀ k < s.olen.toNat, s.mem.read (320 + k) = t.mem.read (320 + k)) ∧
    (∀ k < s.tlen.toNat, s.mem.read (384 + k) = t.mem.read (384 + k)) ∧ s ≠ t := by decide +kernel

theorem wit_EveryStepAnswers : ({ State.reset with pending := [.reset] } : State).pending ≠ [] := by decide

/-- The state after `b64` on 03 00 (V41), about to be read. -/
def tokenState : State :=
  { withBytes 384 [0x41, 0x77, 0x41, 0x41] (withBytes 320 [3] State.reset) with olen := 2, tlen := 4, pending := [.read 384] }

theorem tokenState_chars : ∀ k < tokenState.tlen.toNat,
    alphabet.any (fun c => decide (tokenState.mem.read (Config.tbufBase + k) = asciiCode c)) = true := by decide +kernel

theorem wit_StepKeepsTheInvariant : tokenState.Inv ∧ ∃ t, step tokenState = .next t := by
  refine ⟨⟨?_, ?_, ?_, ?_, ?_, ?_, ?_, fun k hk => by simpa using tokenState_chars k hk⟩, ⟨_, rfl⟩⟩ <;> decide +kernel

/-- A halted CORE meets the invariant too. -/
theorem wit_StepKeepsTheInvariant_halted : haltedCore.Inv := by
  refine ⟨?_, ?_, ?_, ?_, ?_, ?_, ?_, ?_⟩ <;> decide +kernel

theorem wit_BootSequenceConstructsTheGenerator : ({ State.reset with f := fieldsV11, hacc := 5 } : State).fcode = 0 := by decide

theorem wit_EmissionSequenceDeliversTheToken : ({ State.reset with f := initV50 } : State).fcode = 0 := by decide

/-- The draws at their upper bounds. -/
theorem wit_InRangeDrawsSurvivePacking :
    fieldsFit initV50 = true ∧
    operandsInRange #v[0xFFFFFFFF, 0xFFFFFFFF, 10000, 10000, 10000, 10000, 1920, 1080] = true := by decide +kernel

theorem wit_InterleavedReadsDoNotDisturb :
    Interleaving [cmdLine .emit] [.read 443] [.read 443, cmdLine .emit] ∧
    (∃ n r, HostOp.read 443 = .read n ∧ regOf n = some r ∧ r.readable = true) :=
  ⟨.right _ _ _ _ (.left _ _ _ _ .none), 443, .tbuf 59, rfl, by decide, rfl⟩

theorem wit_SameScriptSameResult :
    State.reset.coreOf = ({ State.reset with delivered := [1], pc := 5 } : State).coreOf := by decide

theorem wit_InstancesAreIndependent : (0 : Nat) ≠ 1 ∧ [tokenState, haltedCore].length = 2 := by decide

/-- A table of the right length and sum that differs in two entries is refused, one of another length too. -/
theorem wit_WrongWidthTableIsRefused :
    [4, 4, 4, 4, 1, 1, 1, 2, 3, 2, 2, 2, 2, 2, 2, 4, 2, 1] ≠ Config.widths ∧
    [4, 4, 4, 4, 1, 1, 1, 2, 3, 2, 2, 2, 2, 2, 2, 4, 2, 1].sum = 43 ∧ [43].length ≠ 18 := by decide

theorem wit_CommentsAreIgnored : '"' ∉ "hupd 0x58 ".toList ∧ ';' ∉ "hupd 0x58 ".toList := by decide

end Sys2Proof.Tests
end

section
/-! PROOFS. Construction of a machine from a width table (00_scope R8): what `construct` answers is said once, per case of the
table, and the statement about it follows. -/

namespace Sys2Proof.Machine

/-- 00_scope R8: the legal tables are one table. -/
@[simp] theorem legalTable_iff (table : List Nat) : Config.legalTable table = true ↔ table = Config.widths := by
  simp [Config.legalTable]

theorem construct_widths : construct Config.widths = .next State.reset :=
  if_pos ((legalTable_iff _).mpr rfl)

theorem construct_of_ne_widths {table : List Nat} (h : table ≠ Config.widths) :
    construct table = .refused .configurationCorruption :=
  if_neg (mt (legalTable_iff table).mp h)

/-- The check of length and sum in 00_scope R8 is implied by the comparison of the entries: a table that fails it is not W. -/
theorem ne_widths_of_length_or_sum {table : List Nat} (h : table.length ≠ 18 ∨ table.sum ≠ 43) : table ≠ Config.widths := by
  rintro rfl
  exact absurd h (by decide)

/-- Settles O56: `construct` compares with W entry by entry, and W has 18 entries that sum to 43. -/
theorem wrongWidthTableIsRefused : Obligations.WrongWidthTableIsRefused := by
  intro table
  refine ⟨?specified, construct_of_ne_widths, fun h => construct_of_ne_widths (ne_widths_of_length_or_sum h)⟩
  case specified =>
    rintro rfl
    exact construct_widths

end Sys2Proof.Machine
end

section
/-! PROOFS. The lengths and the characters of the engines' outputs, as far as what stands in the buffers depends on them. -/

namespace Sys2Proof.Machine

@[simp] theorem State.regValue_w (s : State) (i : Fin 18) : s.regValue (.w i) = BitVec.ofNat 32 (widthRom i) := rfl

/-- 40_fieldcodec R101: the encodings stand one after another, with no gaps. -/
theorem packFields_length {ws vs : List Nat} (h : ws.length ≤ vs.length) : (packFields ws vs).length = ws.sum := by
  simp [packFields, List.length_flatMap, List.map_fst_zip h]

theorem packFields_widths_length (f : Vector Word 18) :
    (packFields Config.widths (fieldValues f)).length = Config.packedLen :=
  packFields_length (by rw [fieldValues_length]; decide)

@[simp] theorem obfuscate_length (bs : List Byte) : (obfuscate bs).length = bs.length + 2 := by simp [obfuscate]

/-- 43_base64 R161, R162: four positions for each group of three bytes, a trailing group counted whole. -/
theorem sextets_length (bs : List Byte) : (sextets bs).length = 4 * ((bs.length + 2) / 3) := by
  induction bs using sextets.induct with
  | case1 => rfl
  | case2 b0 => simp [sextets]
  | case3 b0 b1 => simp [sextets]
  | case4 b0 b1 b2 rest ih => simp only [sextets, List.length_append, sextetsOf_length, List.length_cons, ih]; omega

theorem b64encode_length (bs : List Byte) : (b64encode bs).length = 4 * ((bs.length + 2) / 3) := by
  rw [b64encode, List.length_map, sextets_length]

theorem alphabet_length : alphabet.length = 64 := rfl

/-- 43_base64 R160: a 6-bit position is always one of the alphabet's. -/
theorem alphaChar_mem_alphabet (p : BitVec 6) : alphaChar p ∈ alphabet := by
  have hp : p.toNat < alphabet.length := alphabet_length ▸ p.isLt
  rw [alphaChar, List.getD_eq_getElem _ _ hp]
  exact List.getElem_mem hp

theorem mem_alphabet_of_mem_b64encode {bs : List Byte} {c : Char} (h : c ∈ b64encode bs) : c ∈ alphabet := by
  obtain ⟨p, -, rfl⟩ := List.mem_map.mp h
  exact alphaChar_mem_alphabet p

end Sys2Proof.Machine
end

section
/-! PROOFS. What the invariant asks of FCODE and FINFO (10_state R28, R29) is met by each of the three port faults. -/

namespace Sys2Proof.Machine

theorem faultInfoFits_illegalCmd {c : Word} {e : IllegalWord} (h : Sys2Proof.decode c = .error e) :
    faultInfoFits PortFault.illegalCmd.code c = true := by
  simp [faultInfoFits, PortFault.code, h]

theorem faultInfoFits_badReg {n : Word} (h : ∀ r, regOf n = some r → r.readable = false ∨ r.writable = false) :
    faultInfoFits PortFault.badReg.code n = true := by
  cases hr : regOf n with
  | none => simp [faultInfoFits, PortFault.code, hr]
  | some r => rcases h r hr with h | h <;> simp [faultInfoFits, PortFault.code, hr, h]

/-- Only PLEN, OLEN, PBUF and OBUF have a range that a datum can miss (20_memory R54, R55). -/
theorem faultInfoFits_badValue {n v : Word} {r : Reg} (hr : regOf n = some r) (hv : r.legalData v = false) :
    faultInfoFits PortFault.badValue.code n = true := by
  cases r with
  | plen | olen | pbuf k | obuf k => simp [faultInfoFits, PortFault.code, hr]
  | _ => cases hv

end Sys2Proof.Machine
end

section
/-! PROOFS. The invariant: one rule per operation of the state, then every command, every host operation and every step. -/

namespace Sys2Proof.Machine

variable {s t : State}

/-- What the invariant says of memory's cells, after bytes are written inside the buffers. -/
theorem Memory.inBuffer_writeBytes {m : Memory} {base : Nat} {bs : List Byte} (hm : ∀ c ∈ m, inBuffer c.1)
    (hin : ∀ a, base ≤ a → a < base + bs.length → inBuffer a) : ∀ c ∈ m.writeBytes base bs, inBuffer c.1 := by
  intro c hc
  rcases Memory.mem_writeBytes m base bs c hc with ⟨hge, hlt⟩ | hc
  · exact hin c.1 hge hlt
  · exact hm c hc

/-- The invariant speaks of the length registers, the fault registers and the buffers only. -/
theorem State.Inv.congr (h : s.Inv)
    (he : (t.plen, t.olen, t.tlen, t.fcode, t.finfo, t.mem) = (s.plen, s.olen, s.tlen, s.fcode, s.finfo, s.mem)) :
    t.Inv := by
  simp only [Prod.mk.injEq] at he
  obtain ⟨hplen, holen, htlen, hfcode, hfinfo, hmem⟩ := he
  cases s
  cases t
  dsimp only at *
  subst hplen holen htlen hfcode hfinfo hmem
  exact { h with }

theorem State.Inv.setF (h : s.Inv) (v : Vector Word 18) : (s.setF v).Inv := h.congr rfl

theorem State.Inv.setA (h : s.Inv) (v : Vector Word 8) : (s.setA v).Inv := h.congr rfl

theorem State.Inv.setHacc (h : s.Inv) (v : Word) : (s.setHacc v).Inv := h.congr rfl

theorem State.Inv.setKey (h : s.Inv) (v : Word) : (s.setKey v).Inv := h.congr rfl

theorem State.Inv.deliver (h : s.Inv) (v : Word) : (s.deliver v).Inv := h.congr rfl

theorem State.Inv.setPlen (h : s.Inv) {v : Word} (hv : v.toNat ≤ 43) : (s.setPlen v).Inv := { h with plen_le := hv }

theorem State.Inv.setOlen (h : s.Inv) {v : Word} (hv : v.toNat ≤ 45) : (s.setOlen v).Inv := { h with olen_le := hv }

theorem State.Inv.setFault (h : s.Inv) {code : Byte} {info : Word} (hf : faultInfoFits code info = true) :
    (s.setFault code info).Inv := { h with fault_fits := hf }

theorem State.Inv.raise (h : s.Inv) {p : PortFault} {info : Word} (hf : faultInfoFits p.code info = true) :
    (s.raise p info).Inv := by
  cases hh : s.halted with
  | true => rwa [State.raise_of_halted s p info hh]
  | false => rw [State.raise_of_running s p info hh]; exact h.setFault hf

/-- Bytes may be written anywhere in PBUF and OBUF: both lie below TBUF, so the token stays as it was. -/
theorem State.Inv.setMem_writeBytes (h : s.Inv) {base : Nat} {bs : List Byte}
    (hin : ∀ a, base ≤ a → a < base + bs.length → inBuffer a ∧ a < Config.tbufBase) :
    (s.setMem (s.mem.writeBytes base bs)).Inv :=
  { h with
    mem_wf := Memory.wf_writeBytes _ _ _ h.mem_wf
    mem_inBuffer := Memory.inBuffer_writeBytes h.mem_inBuffer fun a hge hlt => (hin a hge hlt).1
    token_chars := fun k hk => by
      have hout : ¬(base ≤ Config.tbufBase + k ∧ Config.tbufBase + k < base + bs.length) :=
        fun ⟨hge, hlt⟩ => Nat.not_lt.mpr (Nat.le_add_right _ k) (hin _ hge hlt).2
      rw [State.setMem_mem, Memory.read_writeBytes, if_neg hout]
      exact h.token_chars k hk }

theorem State.Inv.writePbuf (h : s.Inv) {k : Nat} {bs : List Byte} (hk : k + bs.length ≤ Config.packedLen) :
    (s.setMem (s.mem.writeBytes (Config.pbufBase + k) bs)).Inv :=
  h.setMem_writeBytes fun a _ _ => by
    simp only [inBuffer, Config.pbufBase, Config.packedLen, Config.tbufBase] at *; omega

theorem State.Inv.writeObuf (h : s.Inv) {k : Nat} {bs : List Byte} (hk : k + bs.length ≤ Config.obfLen) :
    (s.setMem (s.mem.writeBytes (Config.obufBase + k) bs)).Inv :=
  h.setMem_writeBytes fun a _ _ => by
    simp only [inBuffer, Config.obufBase, Config.obfLen, Config.tbufBase] at *; omega

/-- A legal datum keeps the lengths in range; the other registers are free, or have no write. -/
theorem State.Inv.regWrite (h : s.Inv) {r : Reg} {v : Word} (hv : r.legalData v = true) : (s.regWrite r v).Inv := by
  cases r with
  | hacc => exact h.setHacc v
  | plen => exact h.setPlen (of_decide_eq_true hv)
  | olen => exact h.setOlen (of_decide_eq_true hv)
  | a j => exact h.setA _
  | f i => exact h.setF _
  | pbuf k => exact h.writePbuf (bs := [v.setWidth 8]) k.isLt
  | obuf k => exact h.writeObuf (bs := [v.setWidth 8]) k.isLt
  | cmd | status | finfo | key | tlen | w | tbuf => exact h

theorem State.Inv.pack (h : s.Inv) : (packOp s).Inv :=
  (h.writePbuf (k := 0) (by rw [packFields_widths_length]; decide)).setPlen (by decide)

theorem State.Inv.obf (h : s.Inv) : (obfOp s).Inv := by
  have hp := h.plen_le
  refine (((h.setHacc _).setKey _).writeObuf (k := 0) ?_).setOlen ?_
  · rw [obfuscate_length, State.pbufValid_length, Config.obfLen]; omega
  · rw [Config.hdrLen, BitVec.toNat_ofNat]; omega

theorem b64Op_tlen_toNat (ho : s.olen.toNat ≤ 45) : (b64Op s).tlen.toNat = 4 * ((s.olen.toNat + 2) / 3) := by
  rw [b64Op_eq, BitVec.toNat_ofNat]; omega

theorem b64encode_obufValid_length (ho : s.olen.toNat ≤ 45) :
    (b64encode s.obufValid).length = 4 * ((s.olen.toNat + 2) / 3) := by
  rw [b64encode_length, State.obufValid_length, Nat.min_eq_left ho]

theorem b64Op_read_tbuf {k : Nat} (hk : k < (b64encode s.obufValid).length) :
    (b64Op s).mem.read (Config.tbufBase + k) = asciiCode (b64encode s.obufValid)[k] := by
  simp [b64Op, Memory.read_writeBytes, hk]

/-- 43_base64 R165: with OLEN in range, B64 writes exactly the TLEN codes that become the token. -/
theorem State.Inv.b64 (h : s.Inv) : (b64Op s).Inv := by
  have ho := h.olen_le
  have htlen := b64Op_tlen_toNat ho
  have hlen := b64encode_obufValid_length ho
  refine { h with tlen_le := by omega, tlen_mod := by omega, mem_wf := Memory.wf_writeBytes _ _ _ h.mem_wf,
                  mem_inBuffer := Memory.inBuffer_writeBytes h.mem_inBuffer fun a hge hlt => ?_,
                  token_chars := fun k hk => ?_ }
  · rw [List.length_map] at hlt
    simp only [inBuffer, Config.tbufBase, Config.tokenLen] at *; omega
  · have hk' : k < (b64encode s.obufValid).length := by omega
    exact ⟨_, mem_alphabet_of_mem_b64encode (List.getElem_mem hk'), b64Op_read_tbuf hk'⟩

/-- Every command keeps the invariant. -/
theorem State.Inv.of_exec {i : Instr} (h : s.Inv) (he : exec i s = .next t) : t.Inv := by
  rcases exec_cases i s t he with ⟨-, rfl⟩ | ⟨-, rfl⟩ | ⟨-, rfl⟩ | ⟨-, rfl⟩ | ⟨-, rfl⟩ | ⟨-, rfl⟩ | ⟨b, -, rfl⟩ | ⟨-, rfl⟩ |
    ⟨-, rfl⟩ | ⟨-, rfl⟩ | ⟨-, rfl⟩
  · exact h
  · exact h.setF _
  · exact h.setF _
  · exact h.pack
  · exact h.setF _
  · exact h.setHacc _
  · exact h.setHacc _
  · exact h.setHacc _
  · exact h.obf
  · exact h.b64
  · exact (h.setF _).pack.obf.b64

/-- Right after a reset every length is 0 and no byte is held. -/
theorem State.reset_inv : State.reset.Inv where
  plen_le := by decide
  olen_le := by decide
  tlen_le := by decide
  tlen_mod := by decide
  fault_fits := by decide
  mem_wf := rfl
  mem_inBuffer := by simp [State.reset]
  token_chars := fun k hk => absurd hk k.not_lt_zero

/-- Every host operation keeps the invariant. -/
theorem State.Inv.of_perform {op : HostOp} (h : s.Inv) (hp : perform op s = .next t) : t.Inv := by
  rcases perform_cases op s t hp with ⟨-, rfl⟩ | ⟨n, r, -, -, -, rfl⟩ | ⟨n, -, hr, rfl⟩ | ⟨n, v, -, -, rfl⟩ |
    ⟨v, i, -, -, -, he⟩ | ⟨v, e, -, -, hd, rfl⟩ | ⟨n, v, r, -, -, -, -, -, hv, rfl⟩ | ⟨n, v, r, -, -, hr, -, hv, rfl⟩ |
    ⟨n, v, -, -, hr, rfl⟩
  · exact State.reset_inv.congr rfl
  · exact h.deliver _
  · exact (h.raise (faultInfoFits_badReg fun r h => .inl (hr r h))).deliver 0
  · exact h
  · exact h.of_exec he
  · exact h.setFault (faultInfoFits_illegalCmd hd)
  · exact h.regWrite hv
  · exact h.setFault (faultInfoFits_badValue hr hv)
  · exact h.setFault (faultInfoFits_badReg fun r h => .inr (hr r h))

end Sys2Proof.Machine
end

section
/-! PROOFS. The statements of 10_state: the invariant along steps and at reset, and the values a reset leaves. -/

namespace Sys2Proof.Machine

/-- Settles O48: a step performs one host operation or nothing, and each of the nine things an operation can do, the eleven
commands among them, keeps the invariant. -/
theorem stepKeepsTheInvariant : Obligations.StepKeepsTheInvariant := by
  intro s t h hs
  rcases step_cases s t hs with ⟨-, rfl⟩ | ⟨op, rest, -, hp⟩
  · exact h
  · have htaken : ({ s with pending := rest, pc := s.pc + 1 } : State).Inv := h.congr rfl
    exact htaken.of_perform hp

/-- Settles O49: the lengths are 0, no fault is recorded and no byte is held. -/
theorem resetMeetsTheInvariant : Obligations.ResetMeetsTheInvariant := State.reset_inv

/-- The width ROM holds the table of 10_state R21. -/
theorem widthRom_words : (List.finRange 18).map (fun i => (BitVec.ofNat 32 (widthRom i) : Word)) =
    [4, 4, 4, 4, 1, 1, 1, 3, 2, 2, 2, 2, 2, 2, 2, 4, 2, 1] := by decide

/-- Settles O1: from any state, halted or not, the reset operation puts every CORE register and buffer byte at its value of
`State.reset`; the width registers are a ROM, which no state can change. -/
theorem resetLeavesTheTabledValues : Obligations.ResetLeavesTheTabledValues := by
  intro s
  refine ⟨s.resetCore, rfl, fun i => ?f, fun j => ?a, rfl, rfl, rfl, rfl, rfl, rfl, rfl, fun a => rfl, ?w⟩
  case f => simp [State.reset]
  case a => simp [State.reset]
  case w => simp only [State.regValue_w, widthRom_words]

end Sys2Proof.Machine
end

section
/-! PROOFS. Reads after a sequence of bytes was written, and the numbers the engines write: what each command's write to the
buffers leaves alone, and what it leaves there whatever stood there before. -/

namespace Sys2Proof.Machine

theorem Memory.bytes_congr {m m' : Memory} {base n : Nat} (h : ∀ k < n, m.read (base + k) = m'.read (base + k)) :
    m.bytes base n = m'.bytes base n :=
  List.map_congr_left fun k hk => h k (List.mem_range.mp hk)

theorem Memory.read_writeBytes_of_lt (m : Memory) (base : Nat) {bs : List Byte} {k : Nat} (hk : k < bs.length) :
    (m.writeBytes base bs).read (base + k) = bs.getD k 0 := by
  rw [Memory.read_writeBytes, if_pos ⟨Nat.le_add_right _ _, Nat.add_lt_add_left hk _⟩, Nat.add_sub_cancel_left]

theorem Memory.read_writeBytes_of_outside (m : Memory) {base x : Nat} {bs : List Byte}
    (hx : ¬(base ≤ x ∧ x < base + bs.length)) : (m.writeBytes base bs).read x = m.read x := by
  rw [Memory.read_writeBytes, if_neg hx]

/-- What was just written reads alike, whatever the two memories held before. -/
theorem Memory.read_writeBytes_eq_of_lt (m m' : Memory) (base : Nat) {bs : List Byte} {k : Nat} (hk : k < bs.length) :
    (m.writeBytes base bs).read (base + k) = (m'.writeBytes base bs).read (base + k) := by
  rw [Memory.read_writeBytes_of_lt m base hk, Memory.read_writeBytes_of_lt m' base hk]

/-- The same bytes written to two memories do not tell them apart. -/
theorem Memory.read_writeBytes_congr {m m' : Memory} {x : Nat} (h : m.read x = m'.read x) (base : Nat) (bs : List Byte) :
    (m.writeBytes base bs).read x = (m'.writeBytes base bs).read x := by
  rw [Memory.read_writeBytes, Memory.read_writeBytes, h]

@[simp] theorem b64Op_key (s : State) : (b64Op s).key = s.key := rfl

/-- With PLEN in range the sum of 42_obfuscator R149 does not wrap. -/
theorem obfOp_olen_toNat {s : State} (hp : s.plen.toNat ≤ 43) : (obfOp s).olen.toNat = s.plen.toNat + 2 := by
  rw [obfOp_eq, BitVec.toNat_ofNat]; omega

theorem obfuscate_pbufValid_length {s : State} (hp : s.plen.toNat ≤ 43) :
    (obfuscate s.pbufValid).length = s.plen.toNat + 2 := by
  rw [obfuscate_length, State.pbufValid_length, Nat.min_eq_left hp]

end Sys2Proof.Machine
end

section
/-! PROOFS. Noninterference of stale storage (20_memory R66): two states that agree on what commands may read still agree after
every command. One rule per operation of the state, as for the invariant. -/

namespace Sys2Proof.Machine

/-- Agreement on all a command may read (20_memory R66): F, A, HACC, the lengths, in range, and the bytes below them. KEY, the
fault registers and every stale byte may differ. -/
structure State.AgreesOnValid (s t : State) : Prop where
  f : s.f = t.f
  a : s.a = t.a
  hacc : s.hacc = t.hacc
  plen : s.plen = t.plen
  olen : s.olen = t.olen
  tlen : s.tlen = t.tlen
  plen_le : s.plen.toNat ≤ 43
  olen_le : s.olen.toNat ≤ 45
  tlen_le : s.tlen.toNat ≤ 60
  pbuf : ∀ k < s.plen.toNat, s.mem.read (256 + k) = t.mem.read (256 + k)
  obuf : ∀ k < s.olen.toNat, s.mem.read (320 + k) = t.mem.read (320 + k)
  tbuf : ∀ k < s.tlen.toNat, s.mem.read (384 + k) = t.mem.read (384 + k)

namespace State.AgreesOnValid

variable {s t : State}

/-- The agreement as one conjunction, as a statement writes it. -/
theorem iff_conj : s.AgreesOnValid t ↔
    s.f = t.f ∧ s.a = t.a ∧ s.hacc = t.hacc ∧ s.plen = t.plen ∧ s.olen = t.olen ∧ s.tlen = t.tlen ∧
    s.plen.toNat ≤ 43 ∧ s.olen.toNat ≤ 45 ∧ s.tlen.toNat ≤ 60 ∧
    (∀ k < s.plen.toNat, s.mem.read (256 + k) = t.mem.read (256 + k)) ∧
    (∀ k < s.olen.toNat, s.mem.read (320 + k) = t.mem.read (320 + k)) ∧
    (∀ k < s.tlen.toNat, s.mem.read (384 + k) = t.mem.read (384 + k)) := by
  constructor
  all_goals
    rintro ⟨hf, ha, hhacc, hplen, holen, htlen, hple, hole, htle, hpbuf, hobuf, htbuf⟩
    exact ⟨hf, ha, hhacc, hplen, holen, htlen, hple, hole, htle, hpbuf, hobuf, htbuf⟩

theorem pbufValid (h : s.AgreesOnValid t) : s.pbufValid = t.pbufValid := by
  unfold State.pbufValid
  rw [← h.plen]
  exact Memory.bytes_congr fun k hk => h.pbuf k (hk.trans_le (Nat.min_le_left _ _))

theorem obufValid (h : s.AgreesOnValid t) : s.obufValid = t.obufValid := by
  unfold State.obufValid
  rw [← h.olen]
  exact Memory.bytes_congr fun k hk => h.obuf k (hk.trans_le (Nat.min_le_left _ _))

theorem setF (h : s.AgreesOnValid t) {v w : Vector Word 18} (hv : v = w) : (s.setF v).AgreesOnValid (t.setF w) :=
  { h with f := hv }

theorem setHacc (h : s.AgreesOnValid t) {v w : Word} (hv : v = w) : (s.setHacc v).AgreesOnValid (t.setHacc w) :=
  { h with hacc := hv }

theorem refresh (h : s.AgreesOnValid t) : (refreshOp s).AgreesOnValid (refreshOp t) :=
  h.setF (by rw [h.f, h.a])

/-- PACK reads F alone, and writes every byte below the PLEN it sets. -/
theorem pack (h : s.AgreesOnValid t) : (packOp s).AgreesOnValid (packOp t) := by
  have hlen : (packFields Config.widths (fieldValues s.f)).length = 43 := packFields_widths_length s.f
  rw [packOp_eq, packOp_eq, ← h.f]
  exact { h with
    f := rfl
    plen := rfl
    plen_le := Nat.le_refl 43
    pbuf := fun k hk => Memory.read_writeBytes_eq_of_lt _ _ _ (hk.trans_eq hlen.symm)
    obuf := fun k hk => Memory.read_writeBytes_congr (h.obuf k hk) _ _
    tbuf := fun k hk => Memory.read_writeBytes_congr (h.tbuf k hk) _ _ }

/-- OBF reads PBUF below PLEN, and writes every byte below the OLEN it sets. -/
theorem obf (h : s.AgreesOnValid t) : (obfOp s).AgreesOnValid (obfOp t) := by
  have holen := obfOp_olen_toNat h.plen_le
  have hlen := (obfuscate_pbufValid_length h.plen_le).trans holen.symm
  rw [obfOp_eq, obfOp_eq, ← h.pbufValid, ← h.plen]
  exact { h with
    hacc := rfl
    plen := rfl
    olen := rfl
    olen_le := holen.trans_le (Nat.add_le_add_right h.plen_le 2)
    pbuf := fun k hk => Memory.read_writeBytes_congr (h.pbuf k hk) _ _
    obuf := fun k hk => Memory.read_writeBytes_eq_of_lt _ _ _ (hk.trans_eq hlen.symm)
    tbuf := fun k hk => Memory.read_writeBytes_congr (h.tbuf k hk) _ _ }

/-- The key that OBF leaves is that of the source (42_obfuscator R149); no KEY left before enters it. -/
theorem obf_key (h : s.AgreesOnValid t) : (obfOp s).key = (obfOp t).key := by
  rw [obfOp_eq, obfOp_eq, h.pbufValid]

/-- B64 reads OBUF below OLEN, and writes every byte below the TLEN it sets. -/
theorem b64 (h : s.AgreesOnValid t) : (b64Op s).AgreesOnValid (b64Op t) := by
  have ho := h.olen_le
  have htlen := b64Op_tlen_toNat ho
  have hlen : ((b64encode s.obufValid).map asciiCode).length = (b64Op s).tlen.toNat := by
    rw [List.length_map, b64encode_obufValid_length ho, htlen]
  rw [b64Op_eq, b64Op_eq, ← h.obufValid, ← h.olen]
  exact { h with
    olen := rfl
    tlen := rfl
    tlen_le := htlen.trans_le (by omega)
    pbuf := fun k hk => Memory.read_writeBytes_congr (h.pbuf k hk) _ _
    obuf := fun k hk => Memory.read_writeBytes_congr (h.obuf k hk) _ _
    tbuf := fun k hk => Memory.read_writeBytes_eq_of_lt _ _ _ (hk.trans_eq hlen.symm) }

/-- Every command takes agreeing states to agreeing states. -/
theorem exec (h : s.AgreesOnValid t) (i : Instr) :
    ∃ s' t', Machine.exec i s = .next s' ∧ Machine.exec i t = .next t' ∧ s'.AgreesOnValid t' ∧
      (i = .obf ∨ i = .emit → s'.key = t'.key) := by
  cases i with
  | nop => exact ⟨_, _, rfl, rfl, h, by simp⟩
  | init => exact ⟨_, _, rfl, rfl, h.setF (by rw [h.a, h.hacc]), by simp⟩
  | refresh => exact ⟨_, _, rfl, rfl, h.refresh, by simp⟩
  | pack => exact ⟨_, _, rfl, rfl, h.pack, by simp⟩
  | unpack => exact ⟨_, _, rfl, rfl, h.setF (by rw [h.pbufValid]), by simp⟩
  | hclr => exact ⟨_, _, rfl, rfl, h.setHacc rfl, by simp⟩
  | hupd b => exact ⟨_, _, rfl, rfl, h.setHacc (by rw [h.hacc]), by simp⟩
  | hbuf => exact ⟨_, _, rfl, rfl, h.setHacc (by rw [h.pbufValid]), by simp⟩
  | obf => exact ⟨_, _, rfl, rfl, h.obf, fun _ => h.obf_key⟩
  | b64 => exact ⟨_, _, rfl, rfl, h.b64, by simp⟩
  | emit =>
    have hpacked := h.refresh.pack
    refine ⟨_, _, rfl, rfl, hpacked.obf.b64, fun _ => ?_⟩
    rw [b64Op_key, b64Op_key]
    exact hpacked.obf_key

end State.AgreesOnValid

/-- Settles O45: every command reads F, A, HACC, the lengths and the bytes below them only, and writes every byte below a length
it sets; the commands that leave a KEY compute it from the source. -/
theorem staleBytesAndKeyAreNeverRead : Obligations.StaleBytesAndKeyAreNeverRead := by
  intro i s t h
  obtain ⟨s', t', hs, ht, hagree, hkey⟩ := (State.AgreesOnValid.iff_conj.mpr h).exec i
  exact ⟨s', t', hs, ht, State.AgreesOnValid.iff_conj.mp hagree, hkey⟩

end Sys2Proof.Machine
end

section
/-! PROOFS. What each command leaves alone (20_memory R67): the host's side and the fault registers always, and every register
and buffer byte that its row of the storage table gives it no write to. -/

namespace Sys2Proof.Machine

/-- 60_exceptions R204: a command answers a next state, whatever the state. -/
theorem exec_answers (i : Instr) (s : State) : ∃ t, exec i s = .next t := by cases i <;> exact ⟨_, rfl⟩

section
variable {i : Instr} {s t : State}

/-- No command writes A, the fault registers or the host's side. -/
theorem exec_frame (h : exec i s = .next t) :
    t.a = s.a ∧ t.fcode = s.fcode ∧ t.finfo = s.finfo ∧ t.pending = s.pending ∧ t.pc = s.pc ∧ t.delivered = s.delivered := by
  cases i <;> cases h <;> exact ⟨rfl, rfl, rfl, rfl, rfl, rfl⟩

theorem exec_f (h : exec i s = .next t) (hinit : i ≠ .init) (hrefresh : i ≠ .refresh) (hunpack : i ≠ .unpack)
    (hemit : i ≠ .emit) : t.f = s.f := by
  cases i with
  | init | refresh | unpack | emit => contradiction
  | _ => cases h; rfl

theorem exec_hacc (h : exec i s = .next t) (hclr : i ≠ .hclr) (hupd : ∀ b, i ≠ .hupd b) (hbuf : i ≠ .hbuf)
    (hobf : i ≠ .obf) (hemit : i ≠ .emit) : t.hacc = s.hacc := by
  cases i with
  | hupd b => exact absurd rfl (hupd b)
  | hclr | hbuf | obf | emit => contradiction
  | _ => cases h; rfl

theorem exec_key_olen (h : exec i s = .next t) (hobf : i ≠ .obf) (hemit : i ≠ .emit) : t.key = s.key ∧ t.olen = s.olen := by
  cases i with
  | obf | emit => contradiction
  | _ => cases h; exact ⟨rfl, rfl⟩

theorem exec_plen (h : exec i s = .next t) (hpack : i ≠ .pack) (hemit : i ≠ .emit) : t.plen = s.plen := by
  cases i with
  | pack | emit => contradiction
  | _ => cases h; rfl

theorem exec_tlen (h : exec i s = .next t) (hb64 : i ≠ .b64) (hemit : i ≠ .emit) : t.tlen = s.tlen := by
  cases i with
  | b64 | emit => contradiction
  | _ => cases h; rfl

end

/-- PACK writes the 43 bytes of PBUF. -/
theorem packOp_read_of_outside (s : State) {a : Nat} (ha : ¬(256 ≤ a ∧ a ≤ 298)) :
    (packOp s).mem.read a = s.mem.read a := by
  have hlen : (packFields Config.widths (fieldValues s.f)).length = 43 := packFields_widths_length s.f
  exact Memory.read_writeBytes_of_outside _ (by rw [hlen]; simp only [Config.pbufBase]; omega)

/-- OBF writes two bytes more than it reads, inside OBUF whatever PLEN is (log 7). -/
theorem obfOp_read_of_outside (s : State) {a : Nat} (ha : ¬(320 ≤ a ∧ a ≤ 364 ∧ a ≤ 320 + (s.plen.toNat + 1))) :
    (obfOp s).mem.read a = s.mem.read a :=
  Memory.read_writeBytes_of_outside _ (by
    rw [obfuscate_length, State.pbufValid_length]; simp only [Config.obufBase]; omega)

/-- B64 writes four characters for each group of three bytes it reads, inside TBUF whatever OLEN is (log 7). -/
theorem b64Op_read_of_outside (s : State) {a : Nat}
    (ha : ¬(384 ≤ a ∧ a ≤ 443 ∧ a < 384 + 4 * ((s.olen.toNat + 2) / 3))) : (b64Op s).mem.read a = s.mem.read a :=
  Memory.read_writeBytes_of_outside _ (by
    rw [List.length_map, b64encode_length, State.obufValid_length]; simp only [Config.tbufBase]; omega)

theorem emit_read_of_outside (s : State) {a : Nat} (hp : ¬(256 ≤ a ∧ a ≤ 298)) (ho : ¬(320 ≤ a ∧ a ≤ 364))
    (ht : ¬(384 ≤ a ∧ a ≤ 443)) : (b64Op (obfOp (packOp (refreshOp s)))).mem.read a = s.mem.read a := by
  rw [b64Op_read_of_outside _ (by tauto), obfOp_read_of_outside _ (by tauto), packOp_read_of_outside _ hp, refreshOp_eq]

/-- A byte of the buffers survives a command that the storage table gives no write to it. -/
theorem exec_read {i : Instr} {s t : State} {a : Nat} (h : exec i s = .next t)
    (hpbuf : i = .pack ∨ i = .emit → ¬(256 ≤ a ∧ a ≤ 298))
    (hobuf : i = .obf → ¬(320 ≤ a ∧ a ≤ 364 ∧ a ≤ 320 + (s.plen.toNat + 1)))
    (hobufEmit : i = .emit → ¬(320 ≤ a ∧ a ≤ 364))
    (htbuf : i = .b64 → ¬(384 ≤ a ∧ a ≤ 443 ∧ a < 384 + 4 * ((s.olen.toNat + 2) / 3)))
    (htbufEmit : i = .emit → ¬(384 ≤ a ∧ a ≤ 443)) : t.mem.read a = s.mem.read a := by
  cases i with
  | pack => cases h; exact packOp_read_of_outside s (hpbuf (.inl rfl))
  | obf => cases h; exact obfOp_read_of_outside s (hobuf rfl)
  | b64 => cases h; exact b64Op_read_of_outside s (htbuf rfl)
  | emit => cases h; exact emit_read_of_outside s (hpbuf (.inr rfl)) (hobufEmit rfl) (htbufEmit rfl)
  | _ => cases h; rfl

/-- Settles O44: the rules above, row by row of the storage table. -/
theorem commandsWriteOnlyTheirStorage : Obligations.CommandsWriteOnlyTheirStorage := by
  intro i s
  obtain ⟨t, h⟩ := exec_answers i s
  obtain ⟨ha, hfcode, hfinfo, hpending, hpc, hdelivered⟩ := exec_frame h
  exact ⟨t, h, ha, hfcode, hfinfo, hpending, hpc, hdelivered, exec_f h, exec_hacc h, exec_key_olen h, exec_plen h, exec_tlen h,
    fun _ => exec_read h⟩

end Sys2Proof.Machine
end

section
/-! PROOFS. What one host operation answers, forward: one rule per case of the port (20_memory R52, R53; 60_exceptions R208). -/

namespace Sys2Proof.Machine

/-- A register answers at its own number (20_memory R51). -/
theorem regOf_of_number {n : Word} {r : Reg} (h : n.toNat = r.number) : regOf n = some r := by
  rw [regOf, h, regAt_number]

theorem Reg.readable_of_ne_cmd {r : Reg} (h : r ≠ .cmd) : r.readable = true := by
  cases r with
  | cmd => exact absurd rfl h
  | _ => rfl

section
variable {s : State} {n v : Word} {r : Reg}

theorem perform_read (hr : regOf n = some r) (hread : r.readable = true) :
    perform (.read n) s = .next (s.deliver (s.regValue r)) := by
  simp [perform, hostRead, hr, hread]

theorem perform_read_unreadable (hr : ∀ r, regOf n = some r → r.readable = false) :
    perform (.read n) s = .next ((s.raise .badReg n).deliver 0) := by
  cases hn : regOf n with
  | none => simp [perform, hostRead, hn]
  | some r => simp [perform, hostRead, hn, hr r hn]

theorem perform_write_halted (hs : s.halted = true) : perform (.write n v) s = .next s := if_pos hs

theorem perform_write_cmd (hs : s.halted = false) : perform (.write 0 v) s = executeWord v s := by
  have hr : regOf 0 = some .cmd := regOf_of_number rfl
  rw [perform, hostWrite, hs, hr]
  rfl

theorem perform_write_legal (hs : s.halted = false) (hr : regOf n = some r) (hcmd : r ≠ .cmd) (hw : r.writable = true)
    (hv : r.legalData v = true) : perform (.write n v) s = .next (s.regWrite r v) := by
  simp [perform, hostWrite, hs, hr, hcmd, hw, hv]

theorem perform_write_badValue (hs : s.halted = false) (hr : regOf n = some r) (hw : r.writable = true)
    (hv : r.legalData v = false) : perform (.write n v) s = .next (s.setFault 3 n) := by
  have hcmd : r ≠ .cmd := by rintro rfl; cases hv
  simp [perform, hostWrite, hs, hr, hcmd, hw, hv, State.raise_of_running, PortFault.code]

theorem perform_write_unwritable (hs : s.halted = false) (hr : ∀ r, regOf n = some r → r.writable = false) :
    perform (.write n v) s = .next (s.setFault 2 n) := by
  cases hn : regOf n with
  | none => simp [perform, hostWrite, hs, hn, State.raise_of_running, PortFault.code]
  | some r => simp [perform, hostWrite, hs, hn, hr r hn, State.raise_of_running, PortFault.code]

theorem executeWord_ok (s : State) {i : Instr} (hd : Sys2Proof.decode v = .ok i) : executeWord v s = exec i s := by
  simp [executeWord, hd]

theorem executeWord_error {e : IllegalWord} (hs : s.halted = false) (hd : Sys2Proof.decode v = .error e) :
    executeWord v s = .next (s.setFault 1 v) := by
  simp [executeWord, hd, State.raise_of_running s _ _ hs, PortFault.code]

end

end Sys2Proof.Machine
end

section
/-! PROOFS. What the value of each register is after a write of the map (20_memory R52, R53): the datum at the register written,
and the value it had at every other. -/

namespace Sys2Proof.Machine

variable (s : State) {r r' : Reg}

theorem State.regValue_setHacc (v : Word) (h : r ≠ .hacc) : (s.setHacc v).regValue r = s.regValue r := by
  cases r with
  | hacc => exact absurd rfl h
  | _ => rfl

theorem State.regValue_setPlen (v : Word) (h : r ≠ .plen) : (s.setPlen v).regValue r = s.regValue r := by
  cases r with
  | plen => exact absurd rfl h
  | _ => rfl

theorem State.regValue_setOlen (v : Word) (h : r ≠ .olen) : (s.setOlen v).regValue r = s.regValue r := by
  cases r with
  | olen => exact absurd rfl h
  | _ => rfl

theorem State.regValue_setA (j : Fin 8) (v : Word) (h : r ≠ .a j) :
    (s.setA (s.a.set j v)).regValue r = s.regValue r := by
  cases r with
  | a j' => exact Vector.getElem_set_ne j.isLt j'.isLt fun hj => h (congrArg Reg.a (Fin.ext hj.symm))
  | _ => rfl

theorem State.regValue_setF (i : Fin 18) (v : Word) (h : r ≠ .f i) :
    (s.setF (s.f.set i v)).regValue r = s.regValue r := by
  cases r with
  | f i' => exact Vector.getElem_set_ne i.isLt i'.isLt fun hi => h (congrArg Reg.f (Fin.ext hi.symm))
  | _ => rfl

/-- A byte written at one number leaves the registers of every other number. -/
theorem State.regValue_setMem_write {a : Nat} (b : Byte) (h : r.number ≠ a) :
    (s.setMem (s.mem.write a b)).regValue r = s.regValue r := by
  cases r with
  | pbuf k | obuf k | tbuf k =>
    rw [Reg.number] at h
    simp only [State.regValue, State.setMem_mem, Memory.read_write, if_neg h]
  | _ => rfl

/-- A write to one register leaves the value of every other. -/
theorem State.regValue_regWrite_of_ne (v : Word) (h : r' ≠ r) : (s.regWrite r v).regValue r' = s.regValue r' := by
  cases r with
  | hacc => exact s.regValue_setHacc v h
  | plen => exact s.regValue_setPlen v h
  | olen => exact s.regValue_setOlen v h
  | a j => exact s.regValue_setA j v h
  | f i => exact s.regValue_setF i v h
  | pbuf k => exact s.regValue_setMem_write _ fun hn => h (Reg.number_inj r' (.pbuf k) hn)
  | obuf k => exact s.regValue_setMem_write _ fun hn => h (Reg.number_inj r' (.obuf k) hn)
  | cmd | status | finfo | key | tlen | w | tbuf => rfl

/-- A datum that fits a byte comes back whole from a byte register, which reads zero-extended (20_memory R52, R55). -/
theorem setWidth_byte_of_le {v : Word} (hv : v.toNat ≤ 255) : (v.setWidth 8).setWidth 32 = v := by
  apply BitVec.eq_of_toNat_eq
  simp only [BitVec.toNat_setWidth]
  omega

/-- The register written reads as the datum. -/
theorem State.regValue_regWrite_same {v : Word} (hcmd : r ≠ .cmd) (hw : r.writable = true) (hv : r.legalData v = true) :
    (s.regWrite r v).regValue r = v := by
  cases r with
  | cmd => exact absurd rfl hcmd
  | status | finfo | key | tlen | w | tbuf => cases hw
  | hacc | plen | olen => rfl
  | a j => exact Vector.getElem_set_self _
  | f i => exact Vector.getElem_set_self _
  | pbuf k | obuf k =>
    have hle : v.toNat ≤ 255 := of_decide_eq_true hv
    simp only [State.regWrite, State.regValue, State.setMem_mem, Memory.read_write, if_true, setWidth_byte_of_le hle]

end Sys2Proof.Machine
end

section
/-! PROOFS. The hardware part of a state: a host operation depends on it alone, and a read of a mapped readable register leaves it
(20_memory R61; 44_tokenstate R188). -/

namespace Sys2Proof.Machine

@[simp] theorem State.coreOf_deliver (s : State) (v : Word) : (s.deliver v).coreOf = s.coreOf := rfl

@[simp] theorem State.halted_coreOf (s : State) : s.coreOf.halted = s.halted := rfl

theorem State.coreOf_regWrite (s : State) (r : Reg) (v : Word) : (s.coreOf.regWrite r v).coreOf = (s.regWrite r v).coreOf := by
  cases r <;> rfl

theorem State.coreOf_raise (s : State) (p : PortFault) (n : Word) : (s.coreOf.raise p n).coreOf = (s.raise p n).coreOf := by
  cases hs : s.halted with
  | true => rw [State.raise_of_halted _ _ _ hs, State.raise_of_halted _ _ _ (s.halted_coreOf.trans hs)]; rfl
  | false => rw [State.raise_of_running _ _ _ hs, State.raise_of_running _ _ _ (s.halted_coreOf.trans hs)]; rfl

/-- Commands neither read nor write the host's side. -/
theorem exec_coreOf {i : Instr} {s t : State} (h : exec i s = .next t) : exec i s.coreOf = .next t.coreOf := by
  cases i <;> cases h <;> rfl

/-- 60_exceptions R204, R209: every host operation answers a next state. -/
theorem perform_answers (op : HostOp) (s : State) : ∃ t, perform op s = .next t := by
  cases op with
  | reset => exact ⟨_, rfl⟩
  | read n => exact ⟨_, rfl⟩
  | write n v =>
    simp only [perform, hostWrite, executeWord]
    split
    · exact ⟨_, rfl⟩
    · split
      · exact ⟨_, rfl⟩
      · split_ifs
        · split
          · exact exec_answers _ s
          · exact ⟨_, rfl⟩
        all_goals exact ⟨_, rfl⟩

/-- What an operation makes of the hardware is what it makes of the hardware part, the host's side blanked. -/
theorem perform_coreOf {op : HostOp} {s t : State} (h : perform op s = .next t) :
    ∃ u, perform op s.coreOf = .next u ∧ u.coreOf = t.coreOf := by
  rcases perform_cases op s t h with ⟨rfl, rfl⟩ | ⟨n, r, rfl, hr, hread, rfl⟩ | ⟨n, rfl, hr, rfl⟩ | ⟨n, v, rfl, hs, rfl⟩ |
    ⟨v, i, rfl, hs, hd, he⟩ | ⟨v, e, rfl, hs, hd, rfl⟩ | ⟨n, v, r, rfl, hs, hr, hcmd, hw, hv, rfl⟩ |
    ⟨n, v, r, rfl, hs, hr, hw, hv, rfl⟩ | ⟨n, v, rfl, hs, hr, rfl⟩
  · exact ⟨_, rfl, rfl⟩
  · exact ⟨_, perform_read hr hread, rfl⟩
  · exact ⟨_, perform_read_unreadable hr, s.coreOf_raise _ n⟩
  · exact ⟨_, perform_write_halted hs, rfl⟩
  · exact ⟨_, (perform_write_cmd (s := s.coreOf) hs).trans ((executeWord_ok _ hd).trans (exec_coreOf he)), rfl⟩
  · exact ⟨_, (perform_write_cmd (s := s.coreOf) hs).trans (executeWord_error (s := s.coreOf) hs hd), rfl⟩
  · exact ⟨_, perform_write_legal hs hr hcmd hw hv, s.coreOf_regWrite r v⟩
  · exact ⟨_, perform_write_badValue hs hr hw hv, rfl⟩
  · exact ⟨_, perform_write_unwritable hs hr, rfl⟩

/-- One operation on two COREs in the same hardware state leaves the same hardware state. -/
theorem perform_congr_coreOf (op : HostOp) {s s' : State} (h : s.coreOf = s'.coreOf) :
    ∃ t t', perform op s = .next t ∧ perform op s' = .next t' ∧ t.coreOf = t'.coreOf := by
  obtain ⟨t, ht⟩ := perform_answers op s
  obtain ⟨t', ht'⟩ := perform_answers op s'
  obtain ⟨u, hu, hut⟩ := perform_coreOf ht
  obtain ⟨u', hu', hut'⟩ := perform_coreOf ht'
  have huu : u = u' := by rw [h, hu'] at hu; exact (Host.Outcome.next.inj hu).symm
  exact ⟨t, t', ht, ht', hut.symm.trans (huu ▸ hut')⟩

/-- Reads interleaved with a script, by induction on the interleaving: an operation of the script is performed on the same hardware
in both runs, and a read leaves the hardware of the second run as it was. -/
theorem performAll_interleaved_reads {xs ys zs : List HostOp} (hz : Interleaving xs ys zs)
    (hreads : ∀ op ∈ ys, ∃ n r, op = .read n ∧ regOf n = some r ∧ r.readable = true) {s s' : State}
    (h : s.coreOf = s'.coreOf) :
    ∃ t u, performAll xs s = .next t ∧ performAll zs s' = .next u ∧ t.coreOf = u.coreOf := by
  induction hz generalizing s s' with
  | none => exact ⟨s, s', rfl, rfl, h⟩
  | left op xs ys zs _ ih =>
    obtain ⟨t, t', ht, ht', htt⟩ := perform_congr_coreOf op h
    rw [performAll_cons op xs s t ht, performAll_cons op zs s' t' ht']
    exact ih hreads htt
  | right op xs ys zs _ ih =>
    obtain ⟨n, r, rfl, hr, hread⟩ := hreads op List.mem_cons_self
    rw [performAll_cons _ zs s' _ (perform_read hr hread)]
    exact ih (fun op hop => hreads op (List.mem_cons_of_mem _ hop)) h

end Sys2Proof.Machine
end

section
/-! PROOFS. The port by register number (20_memory R51 to R55): the numbers of each row of the map, and what a host read or write
of them answers. -/

namespace Sys2Proof.Machine

/-- The numbers of the "R" rows of the register map (20_memory R51). -/
theorem Reg.number_of_readable {r : Reg} (h : r.readable = true) :
    (1 ≤ r.number ∧ r.number ≤ 33) ∨ (48 ≤ r.number ∧ r.number ≤ 65) ∨ (256 ≤ r.number ∧ r.number ≤ 298) ∨
    (320 ≤ r.number ∧ r.number ≤ 364) ∨ (384 ≤ r.number ∧ r.number ≤ 443) := by
  cases r with
  | cmd => cases h
  | _ => simp only [Reg.number, Config.pbufBase, Config.obufBase, Config.tbufBase]; omega

/-- The numbers of the "W" rows of the register map (20_memory R51). -/
theorem Reg.number_of_writable {r : Reg} (h : r.writable = true) :
    r.number = 0 ∨ r.number = 3 ∨ r.number = 5 ∨ r.number = 6 ∨ (8 ≤ r.number ∧ r.number ≤ 33) ∨
    (256 ≤ r.number ∧ r.number ≤ 298) ∨ (320 ≤ r.number ∧ r.number ≤ 364) := by
  cases r with
  | status | finfo | key | tlen | w i | tbuf k => cases h
  | cmd | hacc | plen | olen => simp [Reg.number]
  | _ => simp only [Reg.number, Config.pbufBase, Config.obufBase]; omega

/-- A number inside a row of the register map names an element of that row. -/
theorem exists_row_element {n base count : Nat} (h : base ≤ n ∧ n < base + count) : ∃ k : Fin count, n = base + k :=
  ⟨⟨n - base, by omega⟩, by simp only; omega⟩

variable {s : State} {n v : Word} {r : Reg}

theorem perform_read_number (hn : n.toNat = r.number) (hread : r.readable = true) :
    perform (.read n) s = .next { s with delivered := s.delivered ++ [s.regValue r] } :=
  perform_read (regOf_of_number hn) hread

/-- A buffer byte reads zero-extended at its own number. -/
theorem perform_read_buffer (hn : (256 ≤ n.toNat ∧ n.toNat ≤ 298) ∨ (320 ≤ n.toNat ∧ n.toNat ≤ 364) ∨
    (384 ≤ n.toNat ∧ n.toNat ≤ 443)) :
    perform (.read n) s = .next { s with delivered := s.delivered ++ [(s.mem.read n.toNat).setWidth 32] } := by
  rcases hn with ⟨hge, hle⟩ | ⟨hge, hle⟩ | ⟨hge, hle⟩
  · obtain ⟨k, hk⟩ := exists_row_element (count := 43) ⟨hge, by omega⟩
    rw [hk]; exact perform_read_number (r := .pbuf k) hk rfl
  · obtain ⟨k, hk⟩ := exists_row_element (count := 45) ⟨hge, by omega⟩
    rw [hk]; exact perform_read_number (r := .obuf k) hk rfl
  · obtain ⟨k, hk⟩ := exists_row_element (count := 60) ⟨hge, by omega⟩
    rw [hk]; exact perform_read_number (r := .tbuf k) hk rfl

/-- A number outside the "R" rows names no readable register. -/
theorem not_readable_of_number (hn : n = 0 ∨ (34 ≤ n.toNat ∧ n.toNat ≤ 47) ∨ (66 ≤ n.toNat ∧ n.toNat ≤ 255) ∨
    (299 ≤ n.toNat ∧ n.toNat ≤ 319) ∨ (365 ≤ n.toNat ∧ n.toNat ≤ 383) ∨ 444 ≤ n.toNat) :
    ∀ r, regOf n = some r → r.readable = false := by
  intro r hr
  have hnum : r.number = n.toNat := number_of_regAt _ _ hr
  refine Bool.eq_false_iff.mpr fun hread => ?_
  have := Reg.number_of_readable hread
  bv_omega

/-- A number outside the "W" rows names no writable register. -/
theorem not_writable_of_number (hn : n = 1 ∨ n = 2 ∨ n = 4 ∨ n = 7 ∨ (34 ≤ n.toNat ∧ n.toNat ≤ 255) ∨
    (299 ≤ n.toNat ∧ n.toNat ≤ 319) ∨ 365 ≤ n.toNat) :
    ∀ r, regOf n = some r → r.writable = false := by
  intro r hr
  have hnum : r.number = n.toNat := number_of_regAt _ _ hr
  refine Bool.eq_false_iff.mpr fun hw => ?_
  have := Reg.number_of_writable hw
  bv_omega

/-- A legal datum written at a register's own number (20_memory R53). -/
theorem perform_write_number (hs : s.halted = false) (hn : n.toNat = r.number) (hcmd : r ≠ .cmd) (hw : r.writable = true)
    (hv : r.legalData v = true) : perform (.write n v) s = .next (s.regWrite r v) :=
  perform_write_legal hs (regOf_of_number hn) hcmd hw hv

/-- A number in PBUF or OBUF names a register whose data are bytes (20_memory R55), and whose write is that of its own byte. -/
theorem exists_writable_byte (hn : (256 ≤ n.toNat ∧ n.toNat ≤ 298) ∨ (320 ≤ n.toNat ∧ n.toNat ≤ 364)) :
    ∃ r : Reg, regOf n = some r ∧ r ≠ .cmd ∧ r.writable = true ∧ (∀ v, r.legalData v = decide (v.toNat ≤ 255)) ∧
      ∀ (v : Word) (s : State), s.regWrite r v = s.setMem (s.mem.write n.toNat (v.setWidth 8)) := by
  rcases hn with ⟨hge, hle⟩ | ⟨hge, hle⟩
  · obtain ⟨k, hk⟩ := exists_row_element (count := 43) ⟨hge, by omega⟩
    exact ⟨.pbuf k, regOf_of_number hk, nofun, rfl, fun _ => rfl, fun _ _ => by rw [hk]; rfl⟩
  · obtain ⟨k, hk⟩ := exists_row_element (count := 45) ⟨hge, by omega⟩
    exact ⟨.obuf k, regOf_of_number hk, nofun, rfl, fun _ => rfl, fun _ _ => by rw [hk]; rfl⟩

/-- A byte written through the port stands at its own number, and nothing else changes. -/
theorem perform_write_byte (hs : s.halted = false)
    (hn : (256 ≤ n.toNat ∧ n.toNat ≤ 298) ∨ (320 ≤ n.toNat ∧ n.toNat ≤ 364)) (hv : v.toNat ≤ 255) :
    ∃ t, perform (.write n v) s = .next t ∧ t = { s with mem := t.mem } ∧ (t.mem.read n.toNat).toNat = v.toNat ∧
      ∀ a, a ≠ n.toNat → t.mem.read a = s.mem.read a := by
  obtain ⟨r, hr, hcmd, hw, hlegal, hwrite⟩ := exists_writable_byte hn
  have hp := perform_write_legal hs hr hcmd hw ((hlegal v).trans (decide_eq_true hv))
  rw [hwrite] at hp
  refine ⟨_, hp, rfl, ?datum, fun a ha => ?other⟩
  case datum =>
    rw [State.setMem_mem, Memory.read_write, if_pos rfl, BitVec.toNat_setWidth, Nat.mod_eq_of_lt (Nat.lt_succ_of_le hv)]
  case other => rw [State.setMem_mem, Memory.read_write, if_neg ha]

/-- A datum outside the range of a range-checked register raises BAD_VALUE (20_memory R54, R55). -/
theorem perform_write_outOfRange (hs : s.halted = false)
    (h : (n = 5 ∧ 43 < v.toNat) ∨ (n = 6 ∧ 45 < v.toNat) ∨
      (((256 ≤ n.toNat ∧ n.toNat ≤ 298) ∨ (320 ≤ n.toNat ∧ n.toNat ≤ 364)) ∧ 255 < v.toNat)) :
    perform (.write n v) s = .next (s.setFault 3 n) := by
  rcases h with ⟨rfl, hv⟩ | ⟨rfl, hv⟩ | ⟨hn, hv⟩
  · exact perform_write_badValue hs (regOf_of_number (r := .plen) rfl) rfl (decide_eq_false (Nat.not_le.mpr hv))
  · exact perform_write_badValue hs (regOf_of_number (r := .olen) rfl) rfl (decide_eq_false (Nat.not_le.mpr hv))
  · obtain ⟨r, hr, -, hw, hlegal, -⟩ := exists_writable_byte hn
    exact perform_write_badValue hs hr hw ((hlegal v).trans (decide_eq_false (Nat.not_le.mpr hv)))

end Sys2Proof.Machine
end

section
/-! PROOFS. The statements of 20_memory about the port: a step, the register map read and written, and interleaved reads. -/

namespace Sys2Proof.Machine

/-- Settles O11: `step` takes the next operation and performs it; with none pending there is nothing to take. -/
theorem stepPerformsOneHostOperation : Obligations.StepPerformsOneHostOperation := by
  refine ⟨fun s op rest h => ?pending, fun s h => ?none⟩
  case pending => rw [step, State.nextOp_cons s op rest h]
  case none => rw [step, State.nextOp, h]

/-- Settles O12: each row of the map reads its register; any other number, and CMD, is not readable. -/
theorem hostReadFollowsTheMap : Obligations.HostReadFollowsTheMap := by
  intro s n
  refine ⟨?_, ?_, ?_, ?_, ?_, ?_, ?_, fun j hn => ?_, fun i hn => ?_, fun i hn => ?_, perform_read_buffer,
    fun hn => ⟨fun hs => ?_, fun hs => ?_⟩⟩
  · rintro rfl; exact perform_read_number (r := .status) rfl rfl
  · rintro rfl; exact perform_read_number (r := .finfo) rfl rfl
  · rintro rfl; exact perform_read_number (r := .hacc) rfl rfl
  · rintro rfl; exact perform_read_number (r := .key) rfl rfl
  · rintro rfl; exact perform_read_number (r := .plen) rfl rfl
  · rintro rfl; exact perform_read_number (r := .olen) rfl rfl
  · rintro rfl; exact perform_read_number (r := .tlen) rfl rfl
  · exact perform_read_number (r := .a j) hn rfl
  · exact perform_read_number (r := .f i) hn rfl
  · exact perform_read_number (r := .w i) hn rfl
  · rw [perform_read_unreadable (not_readable_of_number hn), State.raise_of_halted _ _ _ (s.halted_iff.mpr hs)]; rfl
  · rw [perform_read_unreadable (not_readable_of_number hn), State.raise_of_running _ _ _ (s.not_halted_iff.mpr hs)]; rfl

/-- Settles O13: each writable row of the map takes legal data, a datum out of range is BAD_VALUE, any other number BAD_REG. -/
theorem hostWriteFollowsTheMap : Obligations.HostWriteFollowsTheMap := by
  intro s n v
  refine ⟨fun hs => perform_write_halted (s.halted_iff.mpr hs), fun hfcode => ?_⟩
  have hs : s.halted = false := s.not_halted_iff.mpr hfcode
  refine ⟨?_, ?_, ?_, ?_, ?_, fun j hn => ?_, fun i hn => ?_, perform_write_byte hs, perform_write_outOfRange hs,
    fun hn => perform_write_unwritable hs (not_writable_of_number hn)⟩
  · rintro rfl i hd; exact (perform_write_cmd hs).trans (executeWord_ok s hd)
  · rintro rfl e hd; exact (perform_write_cmd hs).trans (executeWord_error hs hd)
  · rintro rfl; exact perform_write_number (r := .hacc) hs rfl nofun rfl rfl
  · rintro rfl hv; exact perform_write_number (r := .plen) hs rfl nofun rfl (decide_eq_true hv)
  · rintro rfl hv; exact perform_write_number (r := .olen) hs rfl nofun rfl (decide_eq_true hv)
  · exact perform_write_number (r := .a j) hs hn nofun rfl rfl
  · exact perform_write_number (r := .f i) hs hn nofun rfl rfl

/-- Settles O14: the write is the register's own, so the rules for the values after a register write apply. -/
theorem writeThenReadReturnsTheDatum : Obligations.WriteThenReadReturnsTheDatum := by
  intro s n v r hfcode hr hcmd hw hv
  refine ⟨_, perform_write_legal (s.not_halted_iff.mpr hfcode) hr hcmd hw hv, ?read, fun r' => s.regValue_regWrite_of_ne v⟩
  case read =>
    rw [perform_read hr (Reg.readable_of_ne_cmd hcmd), s.regValue_regWrite_same hcmd hw hv]
    rfl

/-- Settles O53, by induction on the interleaving. -/
theorem interleavedReadsDoNotDisturb : Obligations.InterleavedReadsDoNotDisturb :=
  fun _ _ _ _ hz hreads => performAll_interleaved_reads hz hreads rfl

end Sys2Proof.Machine
end

section
/-! PROOFS. The decoder and the encoder (30_encoding R81 to R86): a word is its three fields, a word decodes to a command exactly
when its fields are that command's, and the statements about the round trip follow. -/

namespace Sys2Proof

/-- 30_encoding R81, R82: the three fields cover the word, so two words with the same fields are one. -/
theorem eq_of_fields_eq {c d : Word} (hop : opcodeField c = opcodeField d) (himm : imm8Field c = imm8Field d)
    (hzero : zero16Field c = zero16Field d) : c = d := by
  simp only [opcodeField, imm8Field, zero16Field, BitVec.extractLsb'_toNat, Nat.shiftRight_eq_div_pow] at hop himm hzero
  apply BitVec.eq_of_toNat_eq
  omega

theorem imm8Field_lt (c : Word) : imm8Field c < 256 := (c.extractLsb' 8 8).isLt

theorem wordFields (i : Instr) : Laws.WordFields.Statement i := by
  cases i with
  | nop => exact Laws.WordFields.nop
  | init => exact Laws.WordFields.init
  | refresh => exact Laws.WordFields.refresh
  | pack => exact Laws.WordFields.pack
  | unpack => exact Laws.WordFields.unpack
  | hclr => exact Laws.WordFields.hclr
  | hupd b => exact Laws.WordFields.hupd b
  | hbuf => exact Laws.WordFields.hbuf
  | obf => exact Laws.WordFields.obf
  | b64 => exact Laws.WordFields.b64
  | emit => exact Laws.WordFields.emit

/-- Only HUPD has an immediate (30_encoding R83). -/
theorem Instr.immediate_eq_zero {i : Instr} (h : i.opcode ≠ 0x06) : i.immediate = 0 := by
  cases i with
  | hupd b => exact absurd rfl h
  | _ => rfl

/-- The one thing that makes a term of `Instr` no command is an immediate that is no byte (30_encoding R83). -/
theorem Instr.wellFormed_iff (i : Instr) : i.wellFormed = true ↔ i.immediate < 256 := by
  cases i <;> simp [Instr.wellFormed, Instr.immediate]

theorem commandOf_fields (i : Instr) : commandOf i.opcode i.immediate = some i := by cases i <;> rfl

theorem fields_of_commandOf {op imm : Nat} {i : Instr} (h : commandOf op imm = some i) (himm : op ≠ 0x06 → imm = 0) :
    op = i.opcode ∧ imm = i.immediate := by
  unfold commandOf at h
  split at h <;> cases h
  case h_7 => exact ⟨rfl, rfl⟩
  all_goals exact ⟨rfl, himm (by decide)⟩

/-- The three checks of 30_encoding R86 are passed together. -/
theorem decode_eq_ok_iff_checks (c : Word) (i : Instr) : decode c = .ok i ↔
    zero16Field c = 0 ∧ commandOf (opcodeField c) (imm8Field c) = some i ∧ (opcodeField c ≠ 0x06 → imm8Field c = 0) := by
  by_cases hzero : zero16Field c = 0
  · cases hi : commandOf (opcodeField c) (imm8Field c) with
    | none => simp [decode, hzero, hi]
    | some j =>
      by_cases himm : opcodeField c ≠ 0x06 ∧ imm8Field c ≠ 0
      · simp [decode, hzero, hi, himm]
      · simpa [decode, hzero, hi, himm] using fun _ => not_and_not_right.mp himm
  · simp [decode, hzero]

/-- What the decoder accepts, and as what: the words whose fields are the command's (30_encoding R86). -/
theorem decode_eq_ok_iff (c : Word) (i : Instr) : decode c = .ok i ↔
    opcodeField c = i.opcode ∧ imm8Field c = i.immediate ∧ zero16Field c = 0 := by
  rw [decode_eq_ok_iff_checks]
  constructor
  · rintro ⟨hzero, hi, himm⟩
    obtain ⟨hop, himm⟩ := fields_of_commandOf hi himm
    exact ⟨hop, himm, hzero⟩
  · rintro ⟨hop, himm, hzero⟩
    rw [hop, himm]
    exact ⟨hzero, commandOf_fields i, Instr.immediate_eq_zero⟩

/-- Settles O7: the fields of the word are the command's. -/
theorem decodeOfEncodeIsTheCommand : Obligations.DecodeOfEncodeIsTheCommand := by
  intro i hwf
  obtain ⟨hop, himm, hzero, -⟩ := wordFields i hwf
  exact (decode_eq_ok_iff _ i).mpr ⟨hop, himm, hzero⟩

/-- Settles O8: the immediate is a byte because its field is one, and then the two words have the same fields. -/
theorem encodeOfDecodeIsTheWord : Obligations.EncodeOfDecodeIsTheWord := by
  intro c i h
  obtain ⟨hop, himm, hzero⟩ := (decode_eq_ok_iff c i).mp h
  have hwf : i.wellFormed = true := i.wellFormed_iff.mpr (himm ▸ imm8Field_lt c)
  obtain ⟨hop', himm', hzero', -⟩ := wordFields i hwf
  exact ⟨eq_of_fields_eq (hop'.trans hop.symm) (himm'.trans himm.symm) (hzero'.trans hzero.symm), hwf⟩

/-- The two round trips in one: a word decodes to a command exactly when it is the word of that command, a well-formed one. -/
theorem decode_eq_ok_iff_eq_encode (c : Word) (i : Instr) : decode c = .ok i ↔ c = encode i ∧ i.wellFormed = true := by
  constructor
  · intro h
    obtain ⟨hword, hwf⟩ := encodeOfDecodeIsTheWord c i h
    exact ⟨hword.symm, hwf⟩
  · rintro ⟨rfl, hwf⟩
    exact decodeOfEncodeIsTheCommand i hwf

/-- Settles O9: eleven evaluations of the decoder. -/
theorem theElevenWordsDecode : Obligations.TheElevenWordsDecode := by
  unfold Obligations.TheElevenWordsDecode
  decide

end Sys2Proof
end

section
/-! PROOFS. The opcode table (30_encoding R86; spec/opcode_table.json): each command has a row, and a word matches a row exactly
when it decodes to a command of that row. -/

namespace Sys2Proof

/-- The row of a command: HUPD's mask leaves the immediate out, the others' masks are whole. -/
def rowOf : Instr → OpcodeRow
  | .hupd _ => ⟨"HUPD", 0x00000006, 0xFFFF00FF⟩
  | i => ⟨i.mnemonic, encode i, 0xFFFFFFFF⟩

@[simp] theorem rowOf_name (i : Instr) : (rowOf i).name = i.mnemonic := by cases i <;> rfl

theorem rowOf_mem_opcodeTable (i : Instr) : rowOf i ∈ opcodeTable := by
  cases i with
  | hupd b => simp [rowOf, opcodeTable]
  | _ => decide

theorem exists_command_of_mem_opcodeTable {r : OpcodeRow} (h : r ∈ opcodeTable) : ∃ i, r = rowOf i := by
  simp only [opcodeTable, List.mem_cons, List.not_mem_nil, or_false] at h
  rcases h with rfl | rfl | rfl | rfl | rfl | rfl | rfl | rfl | rfl | rfl | rfl
  exacts [⟨.nop, rfl⟩, ⟨.init, rfl⟩, ⟨.refresh, rfl⟩, ⟨.pack, rfl⟩, ⟨.unpack, rfl⟩, ⟨.hclr, rfl⟩, ⟨.hupd 0, rfl⟩, ⟨.hbuf, rfl⟩,
    ⟨.obf, rfl⟩, ⟨.b64, rfl⟩, ⟨.emit, rfl⟩]

/-- A mask of all ones leaves one word. -/
theorem matchesWord_wholeMask (name : String) (p c : Word) : OpcodeRow.matchesWord ⟨name, p, 0xFFFFFFFF⟩ c = true ↔ c = p := by
  have hmask : c &&& 0xFFFFFFFF = c := BitVec.and_allOnes
  rw [OpcodeRow.matchesWord, hmask, beq_iff_eq]

/-- HUPD's mask clears bits 15 to 8 and keeps the other two fields. -/
theorem fields_and_hupdMask (c : Word) : opcodeField (c &&& 0xFFFF00FF) = opcodeField c ∧
    imm8Field (c &&& 0xFFFF00FF) = 0 ∧ zero16Field (c &&& 0xFFFF00FF) = zero16Field c := by
  refine ⟨?_, ?_, ?_⟩
  · exact congrArg BitVec.toNat (BitVec.extractLsb'_and.trans BitVec.and_allOnes)
  · simp [imm8Field, BitVec.extractLsb'_and]
  · exact congrArg BitVec.toNat (BitVec.extractLsb'_and.trans BitVec.and_allOnes)

theorem matchesWord_hupd (b : Nat) (c : Word) :
    (rowOf (.hupd b)).matchesWord c = true ↔ decode c = .ok (.hupd (imm8Field c)) := by
  obtain ⟨hop, himm, hzero⟩ := fields_and_hupdMask c
  rw [decode_eq_ok_iff, rowOf, OpcodeRow.matchesWord, beq_iff_eq]
  constructor
  · intro h
    rw [h] at hop hzero
    exact ⟨hop.symm, rfl, hzero.symm⟩
  · rintro ⟨hop', -, hzero'⟩
    exact eq_of_fields_eq (hop.trans hop') himm (hzero.trans hzero')

theorem matchesWord_of_decode {c : Word} {i : Instr} (h : decode c = .ok i) : (rowOf i).matchesWord c = true := by
  cases i with
  | hupd b =>
    obtain ⟨-, himm, -⟩ := (decode_eq_ok_iff c _).mp h
    exact (matchesWord_hupd b c).mpr (by rw [himm]; exact h)
  | _ => exact (matchesWord_wholeMask _ _ c).mpr ((decode_eq_ok_iff_eq_encode c _).mp h).1

theorem decode_of_matchesWord {c : Word} {i : Instr} (h : (rowOf i).matchesWord c = true) :
    ∃ j, decode c = .ok j ∧ rowOf j = rowOf i := by
  cases i with
  | hupd b => exact ⟨_, (matchesWord_hupd b c).mp h, rfl⟩
  | _ => exact ⟨_, (decode_eq_ok_iff_eq_encode c _).mpr ⟨(matchesWord_wholeMask _ _ c).mp h, rfl⟩, rfl⟩

/-- A row of the table that a word matches is the row of the command it decodes to; so there is at most one. -/
theorem decode_of_mem_opcodeTable {r : OpcodeRow} {c : Word} (hr : r ∈ opcodeTable) (hc : r.matchesWord c = true) :
    ∃ i, decode c = .ok i ∧ rowOf i = r := by
  obtain ⟨i, rfl⟩ := exists_command_of_mem_opcodeTable hr
  exact decode_of_matchesWord hc

theorem opcodeTable_nodup : opcodeTable.Nodup := by decide

/-- Settles O6: a word that decodes matches its command's row, and two rows it matches are both that one. -/
theorem decodeAgreesWithTheOpcodeTable : Obligations.DecodeAgreesWithTheOpcodeTable := by
  refine ⟨fun c => ⟨?row, ?decodes⟩, fun c i h => ?names, opcodeTable_nodup.imp_of_mem ?overlap⟩
  case row =>
    rintro ⟨i, h⟩
    exact ⟨rowOf i, rowOf_mem_opcodeTable i, matchesWord_of_decode h⟩
  case decodes =>
    rintro ⟨r, hr, hc⟩
    obtain ⟨i, h, -⟩ := decode_of_mem_opcodeTable hr hc
    exact ⟨i, h⟩
  case names => exact ⟨rowOf i, rowOf_mem_opcodeTable i, matchesWord_of_decode h, rowOf_name i⟩
  case overlap =>
    rintro r r' hr hr' hne c ⟨hc, hc'⟩
    obtain ⟨i, hi, rfl⟩ := decode_of_mem_opcodeTable hr hc
    obtain ⟨j, hj, rfl⟩ := decode_of_mem_opcodeTable hr' hc'
    rw [hi] at hj
    cases hj
    exact hne rfl

end Sys2Proof
end

section
/-! PROOFS. The legal words (30_encoding R85), and what a write of a word to CMD does (30_encoding R86; 20_memory R64). -/

namespace Sys2Proof.Machine

/-- The commands of the hardware: the ten without an operand and HUPD of each byte. -/
def commands : List Instr := plainCommands ++ (List.range 256).map .hupd

/-- The words of the commands (30_encoding R85). -/
def legalWords : List Word := commands.map encode

theorem mem_commands_iff (i : Instr) : i ∈ commands ↔ i.wellFormed = true := by
  cases i <;> simp [commands, plainCommands, Instr.wellFormed]

theorem commands_nodup : commands.Nodup := by
  refine List.nodup_append.mpr ⟨by decide, List.nodup_range.map fun _ _ => Instr.hupd.inj, fun i hi j hj => ?_⟩
  obtain ⟨b, -, rfl⟩ := List.mem_map.mp hj
  rintro rfl
  simp [plainCommands] at hi

theorem mem_legalWords_iff (c : Word) : c ∈ legalWords ↔ ∃ i, decode c = .ok i := by
  simp only [legalWords, List.mem_map, mem_commands_iff, decode_eq_ok_iff_eq_encode, and_comm, eq_comm (a := c)]

/-- Two well-formed commands with the same word are one, since that word decodes to both. -/
theorem legalWords_nodup : legalWords.Nodup := by
  refine commands_nodup.map_on fun i hi j hj h => ?_
  have hdecode := decodeOfEncodeIsTheCommand i ((mem_commands_iff i).mp hi)
  rw [h, decodeOfEncodeIsTheCommand j ((mem_commands_iff j).mp hj)] at hdecode
  exact (Except.ok.inj hdecode).symm

theorem legalWords_length : legalWords.length = 266 := by simp [legalWords, commands, plainCommands]

theorem exists_commandOf_iff (op imm : Nat) : (∃ i, commandOf op imm = some i) ↔ op ≤ 0x0A := by
  constructor
  · rintro ⟨i, h⟩
    unfold commandOf at h
    split at h
    case h_12 => cases h
    all_goals decide
  · intro h
    interval_cases op <;> exact ⟨_, rfl⟩

/-- The three kinds of illegal words (30_encoding R85), in terms of the fields. -/
theorem exists_decode_iff (c : Word) : (∃ i, decode c = .ok i) ↔
    zero16Field c = 0 ∧ opcodeField c ≤ 0x0A ∧ (opcodeField c ≠ 0x06 → imm8Field c = 0) := by
  simp only [decode_eq_ok_iff_checks, exists_and_left, exists_and_right, exists_commandOf_iff]

theorem opcodeField_eq (c : Word) : opcodeField c = c.toNat % 256 := by simp [opcodeField]

theorem imm8Field_eq (c : Word) : imm8Field c = c.toNat / 256 % 256 := by
  simp [imm8Field, Nat.shiftRight_eq_div_pow]

theorem zero16Field_eq (c : Word) : zero16Field c = c.toNat / 65536 := by
  rw [zero16Field, BitVec.extractLsb'_toNat, Nat.shiftRight_eq_div_pow]
  omega

theorem perform_write_decoded {s : State} {c : Word} {i : Instr} (hs : s.fcode = 0) (hd : decode c = .ok i) :
    perform (.write 0 c) s = exec i s :=
  (perform_write_cmd (s.not_halted_iff.mpr hs)).trans (executeWord_ok s hd)

/-- Settles O5: the legal words are those of the 266 commands, and the port decodes what is written to CMD. -/
theorem illegalWordsFault : Obligations.IllegalWordsFault := by
  refine ⟨legalWords, legalWords_nodup, legalWords_length, fun c => ?kinds, fun c s hc hs => ?illegal, fun c s hc hs => ?legal⟩
  case kinds =>
    rw [mem_legalWords_iff, exists_decode_iff, opcodeField_eq, imm8Field_eq, zero16Field_eq]
    omega
  case illegal =>
    have hrun := s.not_halted_iff.mpr hs
    cases hd : decode c with
    | ok i => exact absurd ((mem_legalWords_iff c).mpr ⟨i, hd⟩) hc
    | error e => exact (perform_write_cmd hrun).trans (executeWord_error hrun hd)
  case legal =>
    obtain ⟨i, hd⟩ := (mem_legalWords_iff c).mp hc
    exact ⟨i, hd, perform_write_decoded hs hd⟩

/-- Settles O10: the step performs the write, and taking the line from `pending` leaves the CORE running. -/
theorem stepRunsTheDecodedCommand : Obligations.StepRunsTheDecodedCommand := by
  intro s c rest i hpending hs hd
  rw [step, State.nextOp_cons s _ rest hpending]
  exact perform_write_decoded hs hd

end Sys2Proof.Machine
end

section
/-! PROOFS. Comments in the text of a script (30_encoding R88). -/

namespace Sys2Proof.Machine

theorem stripComment_append (line rest : List Char) (hquote : '"' ∉ line) (hsemi : ';' ∉ line) :
    stripComment false (line ++ rest) = line ++ stripComment false rest := by
  induction line with
  | nil => rfl
  | cons c cs ih =>
    obtain ⟨hc, hquote⟩ := not_or.mp (mt List.mem_cons.mpr hquote)
    obtain ⟨hc', hsemi⟩ := not_or.mp (mt List.mem_cons.mpr hsemi)
    simp [stripComment, Ne.symm hc, Ne.symm hc', ih hquote hsemi]

theorem stripComment_comment (line comment : List Char) (hquote : '"' ∉ line) (hsemi : ';' ∉ line) :
    stripComment false (line ++ ';' :: comment) = stripComment false line := by
  have hline := stripComment_append line [] hquote hsemi
  rw [List.append_nil] at hline
  rw [hline, stripComment_append line _ hquote hsemi]
  simp [stripComment]

/-- Settles O57: the assembler reads a line only through `stripComment`. -/
theorem commentsAreIgnored : Obligations.CommentsAreIgnored := by
  intro line comment hquote hsemi
  rw [assembleLine, assembleLine, stripComment_comment line comment hquote hsemi]

end Sys2Proof.Machine
end

section
/-! PROOFS. Big-endian numbers (40_fieldcodec R101, R103): the bytes of a number and the number of a byte sequence, each said by
its last byte, and from that that the two are inverse to each other. -/

namespace Sys2Proof.Machine

/-- A bound in bits as a bound in bytes. -/
theorem two_pow_eight_mul (w : Nat) : 2 ^ (8 * w) = 256 ^ w := pow_mul 2 8 w

theorem bigEndian_succ (w x : Nat) : bigEndian (w + 1) x = bigEndian w (x / 256) ++ [BitVec.ofNat 8 x] := by
  rw [bigEndian, List.range_succ, List.map_append, bigEndian]
  congr 1
  · refine List.map_congr_left fun k hk => ?_
    have hk : k < w := List.mem_range.mp hk
    have hshift : 8 * (w + 1 - 1 - k) = 8 + 8 * (w - 1 - k) := by omega
    rw [hshift, Nat.shiftRight_add, Nat.shiftRight_eq_div_pow x 8]
  · simp

@[simp] theorem bigEndianValue_nil : bigEndianValue [] = 0 := rfl

@[simp] theorem bigEndianValue_concat (bs : List Byte) (b : Byte) :
    bigEndianValue (bs ++ [b]) = bigEndianValue bs * 256 + b.toNat := by
  rw [bigEndianValue, List.foldl_concat, ← Nat.shiftLeft_add_eq_or_of_lt b.isLt, Nat.shiftLeft_eq]
  rfl

theorem bigEndianValue_lt (bs : List Byte) : bigEndianValue bs < 256 ^ bs.length := by
  induction bs using List.reverseRecOn with
  | nil => simp
  | append_singleton bs b ih =>
    have hb := b.isLt
    rw [bigEndianValue_concat, List.length_append, List.length_singleton, pow_succ]
    omega

/-- The number a byte function spells, as the sum of its digits. -/
theorem bigEndianValue_map_range (g : Nat → Byte) (w : Nat) :
    bigEndianValue ((List.range w).map g) = ∑ k ∈ Finset.range w, (g k).toNat * 256 ^ (w - 1 - k) := by
  induction w with
  | zero => rfl
  | succ w ih =>
    rw [List.range_succ, List.map_append, List.map_singleton, bigEndianValue_concat, ih, Finset.sum_range_succ,
      Finset.sum_mul]
    congr 1
    · refine Finset.sum_congr rfl fun k hk => ?_
      have hk : k < w := Finset.mem_range.mp hk
      have hexp : w + 1 - 1 - k = w - 1 - k + 1 := by omega
      rw [hexp, pow_succ, mul_assoc]
    · simp

/-- 40_fieldcodec R102: what lies above the `w` low bytes is lost. -/
theorem bigEndianValue_bigEndian (w x : Nat) : bigEndianValue (bigEndian w x) = x % 256 ^ w := by
  induction w generalizing x with
  | zero => simp [bigEndian, Nat.mod_one]
  | succ w ih =>
    rw [bigEndian_succ, bigEndianValue_concat, ih, BitVec.toNat_ofNat, pow_succ' 256 w, Nat.mod_mul, Nat.add_comm,
      Nat.mul_comm]

theorem bigEndian_bigEndianValue (bs : List Byte) : bigEndian bs.length (bigEndianValue bs) = bs := by
  induction bs using List.reverseRecOn with
  | nil => rfl
  | append_singleton bs b ih =>
    have hb := b.isLt
    have hhigh : (bigEndianValue bs * 256 + b.toNat) / 256 = bigEndianValue bs := by omega
    have hlow : BitVec.ofNat 8 (bigEndianValue bs * 256 + b.toNat) = b :=
      BitVec.eq_of_toNat_eq (by rw [BitVec.toNat_ofNat]; omega)
    rw [List.length_append, List.length_singleton, bigEndian_succ, bigEndianValue_concat, hhigh, hlow, ih]

end Sys2Proof.Machine
end

section
/-! PROOFS. The codec for any width table (40_fieldcodec R101, R103, R104): the region of field `i` begins at the sum of the widths
before it; `packFields` puts the field's bytes there and `unpackFrom` reads the field's number there. -/

namespace Sys2Proof.Machine

theorem byteAt_of_length_le {buf : List Byte} {j : Nat} (h : buf.length ≤ j) : byteAt buf j = 0 :=
  List.getD_eq_default _ _ h

theorem byteAt_append_left {xs ys : List Byte} {j : Nat} (h : j < xs.length) : byteAt (xs ++ ys) j = byteAt xs j :=
  List.getD_append _ _ _ _ h

theorem byteAt_append_right (xs ys : List Byte) (j : Nat) : byteAt (xs ++ ys) (xs.length + j) = byteAt ys j := by
  rw [byteAt, List.getD_append_right _ _ _ _ (Nat.le_add_right _ _), Nat.add_sub_cancel_left, byteAt]

theorem byteAt_bigEndian {w k : Nat} (x : Nat) (hk : k < w) :
    (byteAt (bigEndian w x) k).toNat = x / 256 ^ (w - 1 - k) % 256 := by
  simp [byteAt, bigEndian, List.getD_eq_getElem?_getD, hk, Nat.shiftRight_eq_div_pow, two_pow_eight_mul]

/-- The `w` bytes of a buffer from offset `off`, those beyond its end read as 0 (40_fieldcodec R104). -/
def regionBytes (buf : List Byte) (off w : Nat) : List Byte := (List.range w).map (fun k => byteAt buf (off + k))

@[simp] theorem regionBytes_length (buf : List Byte) (off w : Nat) : (regionBytes buf off w).length = w := by
  simp [regionBytes]

theorem regionBytes_add (buf : List Byte) (off w w' : Nat) :
    regionBytes buf off (w + w') = regionBytes buf off w ++ regionBytes buf (off + w) w' := by
  simp [regionBytes, List.range_add, Function.comp_def, Nat.add_assoc]

/-- A region that begins a buffer and reaches its end is the buffer, filled with zero bytes. -/
theorem regionBytes_zero {buf : List Byte} {n : Nat} (h : buf.length ≤ n) :
    regionBytes buf 0 n = buf ++ List.replicate (n - buf.length) 0 := by
  obtain ⟨d, rfl⟩ := Nat.exists_eq_add_of_le h
  rw [regionBytes_add, Nat.add_sub_cancel_left]
  congr 1
  · exact List.ext_getElem (by simp) fun k _ hk => by simp [regionBytes, byteAt, hk]
  · exact List.eq_replicate_iff.mpr ⟨by simp, fun b hb => by
      obtain ⟨k, -, rfl⟩ := List.mem_map.mp hb
      exact byteAt_of_length_le (by omega)⟩

@[simp] theorem packFields_cons (w v : Nat) (ws vs : List Nat) :
    packFields (w :: ws) (v :: vs) = bigEndian w v ++ packFields ws vs := rfl

@[simp] theorem unpackFrom_cons (w off : Nat) (ws : List Nat) (buf : List Byte) : unpackFrom (w :: ws) off buf =
    (bigEndianValue (regionBytes buf off w) &&& 0xFFFFFFFF) :: unpackFrom ws (off + w) buf := rfl

/-- 40_fieldcodec R101: byte `k` of field `i` stands `k` bytes after the encodings before it. -/
theorem byteAt_packFields {ws vs : List Nat} (hlen : ws.length = vs.length) {i k : Nat} (hk : k < ws.getD i 0) :
    byteAt (packFields ws vs) ((ws.take i).sum + k) = byteAt (bigEndian (ws.getD i 0) (vs.getD i 0)) k := by
  induction ws generalizing vs i with
  | nil => simp at hk
  | cons w ws ih =>
    obtain _ | ⟨v, vs⟩ := vs
    · simp at hlen
    cases i with
    | zero => simpa using byteAt_append_left (by simpa using hk)
    | succ i =>
      have hrest := byteAt_append_right (bigEndian w v) (packFields ws vs) ((ws.take i).sum + k)
      rw [bigEndian_length, ih (by simpa using hlen) (by simpa using hk)] at hrest
      simpa [Nat.add_assoc] using hrest

/-- The region of field `i` in a packed buffer holds the field's bytes and no other. -/
theorem regionBytes_packFields {ws vs : List Nat} (hlen : ws.length = vs.length) (i : Nat) :
    regionBytes (packFields ws vs) (ws.take i).sum (ws.getD i 0) = bigEndian (ws.getD i 0) (vs.getD i 0) :=
  List.ext_getElem (by simp) fun k hk hk' => by
    have hbyte := byteAt_packFields hlen (by simpa using hk)
    have hlt : k < ws.getD i 0 := by simpa using hk
    rw [byteAt, byteAt, List.getD_eq_getElem _ _ hk'] at hbyte
    simpa [regionBytes, byteAt] using hbyte

/-- 40_fieldcodec R105: every value read fits 32 bits. -/
theorem lt_of_mem_unpackFrom {ws : List Nat} {off x : Nat} {buf : List Byte} (h : x ∈ unpackFrom ws off buf) :
    x < 2 ^ 32 := by
  induction ws generalizing off with
  | nil => cases h
  | cons w ws ih =>
    rcases List.mem_cons.mp h with rfl | h
    · exact Nat.and_lt_two_pow _ (by decide)
    · exact ih h

/-- The mask of 40_fieldcodec R105 loses nothing of a field of at most four bytes. -/
theorem regionValue_and_mask (buf : List Byte) (off : Nat) {w : Nat} (hw : w ≤ 4) :
    bigEndianValue (regionBytes buf off w) &&& 0xFFFFFFFF = bigEndianValue (regionBytes buf off w) := by
  have hlt : bigEndianValue (regionBytes buf off w) < 2 ^ 32 := calc
    bigEndianValue (regionBytes buf off w) < 256 ^ w := by simpa using bigEndianValue_lt (regionBytes buf off w)
    _ ≤ 256 ^ 4 := Nat.pow_le_pow_right (by decide) hw
    _ = 2 ^ 32 := by decide
  exact (Nat.and_two_pow_sub_one_eq_mod _ 32).trans (Nat.mod_eq_of_lt hlt)

/-- 40_fieldcodec R103: field `i` is read in its own region. -/
theorem unpackFrom_getD {ws : List Nat} (hws : ∀ w ∈ ws, w ≤ 4) (off : Nat) (buf : List Byte) (i : Nat) :
    (unpackFrom ws off buf).getD i 0 = bigEndianValue (regionBytes buf (off + (ws.take i).sum) (ws.getD i 0)) := by
  induction ws generalizing off i with
  | nil => rfl
  | cons w ws ih =>
    obtain ⟨hw, hws⟩ := List.forall_mem_cons.mp hws
    cases i with
    | zero => simpa using regionValue_and_mask buf off hw
    | succ i => simpa [Nat.add_assoc] using ih hws (off + w) i

/-- 40_fieldcodec R109: packing what was read from the regions gives the bytes the regions cover. -/
theorem packFields_unpackFrom {ws : List Nat} (hws : ∀ w ∈ ws, w ≤ 4) (off : Nat) (buf : List Byte) :
    packFields ws (unpackFrom ws off buf) = regionBytes buf off ws.sum := by
  induction ws generalizing off with
  | nil => rfl
  | cons w ws ih =>
    obtain ⟨hw, hws⟩ := List.forall_mem_cons.mp hws
    have hfield := bigEndian_bigEndianValue (regionBytes buf off w)
    rw [regionBytes_length] at hfield
    rw [unpackFrom_cons, packFields_cons, regionValue_and_mask buf off hw, hfield, ih hws, List.sum_cons, regionBytes_add]

end Sys2Proof.Machine
end

section
/-! PROOFS. The codec for the specified width table (40_fieldcodec R100, R102, R109). -/

namespace Sys2Proof.Machine

theorem widths_le_four : ∀ w ∈ Config.widths, w ≤ 4 := by decide

theorem fieldOffset_add_widthRom_le : ∀ i : Fin 18, fieldOffset i + widthRom i ≤ 43 := by decide

/-- A field's region ends where, or before, the region of any later field begins. -/
theorem fieldOffset_add_widthRom_le_of_lt : ∀ i j : Fin 18, i < j → fieldOffset i + widthRom i ≤ fieldOffset j := by decide

theorem exists_region_of_lt : ∀ j < 43, ∃ p : Fin 18 × Fin 4, (p.2 : Nat) < widthRom p.1 ∧ fieldOffset p.1 + p.2 = j := by
  decide

/-- Settles O20: the regions follow each other in index order, so that no byte lies in two of them. -/
theorem fieldRegionsTileThePackedBuffer : Obligations.FieldRegionsTileThePackedBuffer := by
  refine ⟨by decide, by decide, fun j hj => ?_⟩
  obtain ⟨p, hp, hpj⟩ := exists_region_of_lt j hj
  refine ⟨p, ⟨hp, hpj⟩, fun q ⟨hq, hqj⟩ => ?_⟩
  have hfield : q.1 = p.1 := by
    rcases lt_trichotomy q.1 p.1 with hlt | heq | hgt
    · have := fieldOffset_add_widthRom_le_of_lt _ _ hlt; omega
    · exact heq
    · have := fieldOffset_add_widthRom_le_of_lt _ _ hgt; omega
  refine Prod.ext hfield (Fin.ext ?_)
  rw [hfield] at hqj
  omega

theorem unpackFields_widths_length (buf : List Byte) : (unpackFields Config.widths buf).length = 18 :=
  unpackFrom_length _ _ _

theorem unpackFields_getD (buf : List Byte) (i : Nat) : (unpackFields Config.widths buf).getD i 0 =
    bigEndianValue (regionBytes buf (fieldOffset i) (Config.widths.getD i 0)) := by
  rw [unpackFields, unpackFrom_getD widths_le_four, Nat.zero_add, fieldOffset]

theorem unpackFields_packFields_getD {v : List Nat} (hv : v.length = 18) (i : Nat) :
    (unpackFields Config.widths (packFields Config.widths v)).getD i 0 = v.getD i 0 % 2 ^ (8 * Config.widths.getD i 0) := by
  have hlen : Config.widths.length = v.length := hv.symm
  rw [unpackFields_getD, fieldOffset, regionBytes_packFields hlen, bigEndianValue_bigEndian, two_pow_eight_mul]

theorem packFields_unpackFields {buf : List Byte} (h : buf.length ≤ 43) :
    packFields Config.widths (unpackFields Config.widths buf) = buf ++ List.replicate (43 - buf.length) 0 := by
  rw [unpackFields, packFields_unpackFrom widths_le_four]
  exact regionBytes_zero h

theorem packFields_unpackFields_of_length {buf : List Byte} (h : buf.length = 43) :
    packFields Config.widths (unpackFields Config.widths buf) = buf := by
  simpa [h] using packFields_unpackFields h.le

/-- Settles O24: field by field one way, region by region the other. -/
theorem codecRoundTrips : Obligations.CodecRoundTrips :=
  ⟨fun _ hv i _ => unpackFields_packFields_getD hv i, fun _ => packFields_unpackFields_of_length,
    fun _ hbuf => packFields_unpackFields hbuf.le⟩

/-- Settles O23: by the round trips, the packed bytes are those of the reduced values, and these are the same for both lists. -/
theorem packTruncatesToTheWidths : Obligations.PackTruncatesToTheWidths := by
  intro v v' hv hv' hmod
  have hlen {x : List Nat} (hx : x.length = 18) : (packFields Config.widths x).length = 43 := packFields_length hx.ge
  have hreduced : unpackFields Config.widths (packFields Config.widths v) =
      unpackFields Config.widths (packFields Config.widths v') := by
    refine List.ext_getElem (by simp only [unpackFields_widths_length]) fun i hi hi' => ?_
    rw [← List.getD_eq_getElem _ 0 hi, ← List.getD_eq_getElem _ 0 hi', unpackFields_packFields_getD hv,
      unpackFields_packFields_getD hv', hmod i (unpackFields_widths_length _ ▸ hi)]
  refine ⟨?_, hlen hv⟩
  rw [← packFields_unpackFields_of_length (hlen hv), hreduced, packFields_unpackFields_of_length (hlen hv')]

end Sys2Proof.Machine
end

section
/-! PROOFS. The commands PACK and UNPACK (40_fieldcodec R107, R108, R111): the field registers as a list of values, PBUF as a list
of bytes, and then what each command leaves. -/

namespace Sys2Proof.Machine

theorem fieldValues_getD (f : Vector Word 18) (i : Fin 18) : (fieldValues f).getD i 0 = f[i].toNat := by
  simp [fieldValues, List.getD_eq_getElem?_getD]

theorem fieldFile_ext {f g : Vector Word 18} (h : ∀ i : Fin 18, f[i].toNat = g[i].toNat) : f = g :=
  Vector.ext fun i hi => BitVec.eq_of_toNat_eq (h ⟨i, hi⟩)

/-- What `unpack` gives fits a field register: no bit is lost on the way into F. -/
theorem fieldValues_fieldFileOf (buf : List Byte) : fieldValues (fieldFileOf buf) = unpackFields Config.widths buf := by
  simp only [fieldValues, fieldFileOf, Vector.toList_mk, List.map_map]
  refine (List.map_congr_left fun x hx => ?_).trans (List.map_id _)
  exact (BitVec.toNat_ofNat x 32).trans (Nat.mod_eq_of_lt (lt_of_mem_unpackFrom hx))

theorem fieldFileOf_toNat (buf : List Byte) (i : Fin 18) :
    (fieldFileOf buf)[i].toNat = (unpackFields Config.widths buf).getD i 0 := by
  rw [← fieldValues_getD, fieldValues_fieldFileOf]

theorem toNat_lt_of_fieldsFit {f : Vector Word 18} (h : fieldsFit f = true) (i : Fin 18) :
    f[i].toNat < 2 ^ (8 * widthRom i) := by
  have hi : (i : Nat) < (Config.widths.zip (fieldValues f)).length := by
    rw [List.length_zip, fieldValues_length]; exact i.isLt
  have hfit := List.all_eq_true.mp h _ (List.getElem_mem hi)
  have hwidth : widthRom i = Config.widths[i] := List.getD_eq_getElem _ _ i.isLt
  simpa [hwidth, fieldValues] using hfit

theorem byteAt_pbufValid (s : State) {j : Nat} (hj : j < 43) :
    byteAt s.pbufValid j = if j < s.plen.toNat then s.mem.read (256 + j) else 0 := by
  rw [byteAt, State.pbufValid, Memory.bytes_getD]
  simp [Config.packedLen, Config.pbufBase, hj]

theorem Memory.bytes_writeBytes (m : Memory) (base : Nat) (bs : List Byte) :
    (m.writeBytes base bs).bytes base bs.length = bs :=
  List.ext_getElem (by simp) fun k _ hk => by
    simp [Memory.bytes, Memory.read_writeBytes_of_lt m base hk, hk]

/-- Writing bytes back where they stand changes no byte. -/
theorem Memory.read_writeBytes_bytes (m : Memory) (base n a : Nat) :
    (m.writeBytes base (m.bytes base n)).read a = m.read a := by
  rw [Memory.read_writeBytes, Memory.bytes_length, Memory.bytes_getD]
  by_cases ha : base ≤ a ∧ a < base + n
  · have hlt : a - base < n := by omega
    rw [if_pos ha, if_pos hlt, Nat.add_sub_cancel' ha.1]
  · rw [if_neg ha]

theorem packOp_read_field (s : State) (i : Fin 18) {k : Nat} (hk : k < widthRom i) :
    ((packOp s).mem.read (256 + (fieldOffset i + k))).toNat = s.f[i].toNat / 256 ^ (widthRom i - 1 - k) % 256 := by
  have hin : fieldOffset i + k < (packFields Config.widths (fieldValues s.f)).length := by
    have hend := fieldOffset_add_widthRom_le i
    rw [packFields_widths_length, Config.packedLen]
    omega
  have hread : (packOp s).mem.read (256 + (fieldOffset i + k)) = byteAt (bigEndian (widthRom i) s.f[i].toNat) k := by
    have hlen : Config.widths.length = (fieldValues s.f).length := (fieldValues_length s.f).symm
    rw [← fieldValues_getD]
    exact (Memory.read_writeBytes_of_lt s.mem 256 hin).trans (byteAt_packFields hlen hk)
  rw [hread, byteAt_bigEndian _ hk]

/-- Settles O21: the packed bytes are written from PBUF[0] on, so each field's stand at its offset. -/
theorem packWritesEveryFieldBigEndian : Obligations.PackWritesEveryFieldBigEndian :=
  ⟨rfl, fun s => ⟨packOp s, rfl, packOp_eq s, fun i _ hk => packOp_read_field s i hk,
    fun _ ha => packOp_read_of_outside s (by omega)⟩⟩

/-- Settles O22: a field is the big-endian number of its region, whose bytes `byteAt_pbufValid` gives. -/
theorem unpackReadsEveryFieldBigEndian : Obligations.UnpackReadsEveryFieldBigEndian := by
  refine ⟨rfl, fun s => ⟨unpackOp s, rfl, unpackOp_eq s, fun i => ?_⟩⟩
  have hend := fieldOffset_add_widthRom_le i
  calc (unpackOp s).f[i].toNat
      = bigEndianValue (regionBytes s.pbufValid (fieldOffset i) (widthRom i)) := by
        rw [unpackOp_eq, fieldFileOf_toNat, unpackFields_getD, widthRom]
    _ = ∑ k ∈ Finset.range (widthRom i), (byteAt s.pbufValid (fieldOffset i + k)).toNat * 256 ^ (widthRom i - 1 - k) :=
        bigEndianValue_map_range _ _
    _ = _ := Finset.sum_congr rfl fun k hk => by
        have hk : k < widthRom i := Finset.mem_range.mp hk
        rw [byteAt_pbufValid s (by omega), apply_ite BitVec.toNat]
        rfl

/-- After PACK the valid packed bytes are the packed fields. -/
theorem packOp_pbufValid (s : State) : (packOp s).pbufValid = packFields Config.widths (fieldValues s.f) := by
  have hbytes := Memory.bytes_writeBytes s.mem Config.pbufBase (packFields Config.widths (fieldValues s.f))
  rwa [packFields_widths_length] at hbytes

theorem unpackOp_packOp_f_toNat (s : State) (i : Fin 18) :
    (unpackOp (packOp s)).f[i].toNat = s.f[i].toNat % 2 ^ (8 * widthRom i) := by
  rw [unpackOp_eq, fieldFileOf_toNat, packOp_pbufValid, unpackFields_packFields_getD (fieldValues_length s.f),
    fieldValues_getD, widthRom]

/-- With PLEN = 43, UNPACK followed by PACK writes the bytes of PBUF back where they stood. -/
theorem packOp_unpackOp_read (s : State) (hplen : s.plen = 43) (a : Nat) :
    (packOp (unpackOp s)).mem.read a = s.mem.read a := by
  have hvalid : s.pbufValid = s.mem.bytes 256 43 := by rw [State.pbufValid, hplen]; rfl
  have hpacked : packFields Config.widths (fieldValues (unpackOp s).f) = s.mem.bytes 256 43 := by
    rw [unpackOp_eq, fieldValues_fieldFileOf, hvalid, packFields_unpackFields_of_length (Memory.bytes_length _ _ _)]
  rw [packOp_eq, hpacked]
  exact Memory.read_writeBytes_bytes s.mem 256 43 a

/-- Settles O25: the codec's round trips, carried over to the commands. -/
theorem packAndUnpackCommandsRoundTrip : Obligations.PackAndUnpackCommandsRoundTrip := by
  refine ⟨fun s => ⟨packOp s, unpackOp (packOp s), rfl, rfl, unpackOp_packOp_f_toNat s, fun hfit => fieldFile_ext fun i => ?fits⟩,
    fun s hplen => ⟨unpackOp s, packOp (unpackOp s), rfl, rfl, packOp_unpackOp_read s hplen⟩⟩
  case fits => rw [unpackOp_packOp_f_toNat, Nat.mod_eq_of_lt (toNat_lt_of_fieldsFit hfit i)]

end Sys2Proof.Machine
end

section
/-! PROOFS. The hash over unbounded integers (41_weakhash R120, R121, R123): its recurrence by the last byte, its composition, and
its closed form. -/

namespace Sys2Proof.Machine

/-- 41_weakhash R120: the shift loses no bit and the subtraction never goes below zero. -/
theorem hashStep_eq (acc : Nat) (b : Byte) : hashStep acc b = 31 * acc + b.toNat := by
  rw [hashStep, Nat.shiftLeft_eq]
  omega

@[simp] theorem hashH_nil : hashH [] = 0 := rfl

@[simp] theorem hashH_concat (bs : List Byte) (b : Byte) : hashH (bs ++ [b]) = 31 * hashH bs + b.toNat := by
  rw [hashH, List.foldl_concat, hashStep_eq, hashH]

theorem foldl_hashStep_hashH (bs cs : List Byte) : cs.foldl hashStep (hashH bs) = hashH (bs ++ cs) :=
  List.foldl_append.symm

theorem hashH_append (bs cs : List Byte) : hashH (bs ++ cs) = hashH bs * 31 ^ cs.length + hashH cs := by
  induction cs using List.reverseRecOn with
  | nil => simp
  | append_singleton cs c ih =>
    rw [← List.append_assoc, hashH_concat, hashH_concat, ih, List.length_append, List.length_singleton]
    ring

theorem hashH_cons (b : Byte) (bs : List Byte) : hashH (b :: bs) = b.toNat * 31 ^ bs.length + hashH bs := by
  have hone : hashH [b] = b.toNat := by simpa using hashH_concat [] b
  rw [← hone]
  exact hashH_append [b] bs

theorem hashH_eq_sum (bs : List Byte) :
    hashH bs = ∑ i ∈ Finset.range bs.length, (bs.getD i 0).toNat * 31 ^ (bs.length - 1 - i) := by
  induction bs with
  | nil => rfl
  | cons b bs ih =>
    have hexp (i : Nat) : bs.length + 1 - 1 - (i + 1) = bs.length - 1 - i := by omega
    rw [hashH_cons, ih, List.length_cons, Finset.sum_range_succ', Nat.add_comm]
    simp only [List.getD_cons_succ, hexp]
    rfl

/-- Settles O30: the closed form by induction on the bytes, the composition by the recurrence. -/
theorem hashComposes : Obligations.HashComposes :=
  ⟨hashH_eq_sum, hashH_append, foldl_hashStep_hashH⟩

end Sys2Proof.Machine
end

section
/-! PROOFS. The 32-bit wrapping accumulator (41_weakhash R122): reduction mod 2^32 commutes with the recurrence, so it may be done
at every byte or once at the end. -/

namespace Sys2Proof.Machine

theorem haccUpdate_toNat (acc : Word) (b : Nat) : (haccUpdate acc b).toNat = (31 * acc.toNat + b) % 2 ^ 32 :=
  BitVec.toNat_ofNat _ _

/-- The wrapping update of a reduced accumulator is the reduction of the unbounded update. -/
theorem haccUpdate_ofNat (acc : Nat) (b : Byte) :
    haccUpdate (BitVec.ofNat 32 acc) b.toNat = BitVec.ofNat 32 (hashStep acc b) := by
  apply BitVec.eq_of_toNat_eq
  rw [haccUpdate_toNat, hashStep_eq, BitVec.toNat_ofNat, BitVec.toNat_ofNat]
  omega

theorem foldl_haccUpdate_zero (bs : List Byte) : bs.foldl (fun acc b => haccUpdate acc b.toNat) 0 = hash32 bs :=
  List.foldl_hom (BitVec.ofNat 32) haccUpdate_ofNat

/-- 41_weakhash R121: 256 divides 2^32, so the 8-bit mask may be applied to the 32-bit hash. -/
theorem hash32_setWidth_eight (bs : List Byte) : (hash32 bs).setWidth 8 = hash8 bs :=
  BitVec.setWidth_ofNat_of_le (by decide) _

/-- Settles O29: the wrapping accumulator ends at `hash32`, and the rest is the two masks of it. -/
theorem wrappingHashEqualsUnboundedHash : Obligations.WrappingHashEqualsUnboundedHash := by
  intro bs wrapped
  have hwrapped : wrapped = hash32 bs := foldl_haccUpdate_zero bs
  have hlow : (hash32 bs).toNat % 256 = (hash8 bs).toNat := by rw [← hash32_setWidth_eight, BitVec.toNat_setWidth]
  rw [hwrapped]
  exact ⟨BitVec.toNat_ofNat _ _, rfl, hlow⟩

end Sys2Proof.Machine
end

section
/-! PROOFS. The commands HCLR, HUPD and HBUF (41_weakhash R124 to R126), and the hash streamed through the port, one HUPD per
byte. -/

namespace Sys2Proof.Machine

theorem exec_hclr (s : State) : exec .hclr s = .next { s with hacc := 0 } := rfl

theorem exec_hupd (b : Nat) (s : State) : exec (.hupd b) s = .next { s with hacc := haccUpdate s.hacc b } := rfl

theorem exec_hbuf (s : State) : exec .hbuf s = .next { s with hacc := hash32 s.pbufValid } := rfl

/-- 30_encoding R82, R83: the immediate stands above the opcode. -/
theorem encode_hupd_toNat {b : Nat} (hb : b < 256) : (encode (.hupd b)).toNat = 6 + b * 256 := by
  rw [encode, Instr.opcode, Instr.immediate, Nat.shiftLeft_eq, BitVec.toNat_ofNat]
  omega

/-- A command line on a running CORE performs its command (30_encoding R88). -/
theorem perform_cmdLine {s : State} {i : Instr} (hs : s.fcode = 0) (hwf : i.wellFormed = true) :
    perform (cmdLine i) s = exec i s :=
  perform_write_decoded hs (decodeOfEncodeIsTheCommand i hwf)

theorem perform_cmdLine_hupd {s : State} (hs : s.fcode = 0) (b : Byte) :
    perform (cmdLine (.hupd b.toNat)) s = .next { s with hacc := haccUpdate s.hacc b.toNat } :=
  perform_cmdLine (i := .hupd b.toNat) hs ((Instr.wellFormed_iff _).mpr b.isLt)

/-- One HUPD per byte feeds the bytes to the accumulator, from the value it has. -/
theorem performAll_hstrLines (u : List Byte) {s : State} (hs : s.fcode = 0) :
    performAll (hstrLines u) s = .next { s with hacc := u.foldl (fun acc b => haccUpdate acc b.toNat) s.hacc } := by
  induction u generalizing s with
  | nil => rfl
  | cons b u ih => exact (performAll_cons _ _ _ _ (perform_cmdLine_hupd hs b)).trans (ih hs)

theorem performAll_hashLines (u : List Byte) {s : State} (hs : s.fcode = 0) :
    performAll (hashLines u) s = .next { s with hacc := hash32 u } := by
  have hcleared : perform (cmdLine .hclr) s = .next { s with hacc := 0 } := perform_cmdLine hs rfl
  rw [← foldl_haccUpdate_zero]
  exact (performAll_cons _ _ _ _ hcleared).trans (performAll_hstrLines u hs)

/-- With PLEN in range nothing of the valid packed bytes is cut (10_state R27, R31). -/
theorem pbufValid_of_plen_le {s : State} (hp : s.plen.toNat ≤ 43) :
    s.pbufValid = (List.range s.plen.toNat).map (fun k => s.mem.read (256 + k)) := by
  rw [State.pbufValid, Config.packedLen, Nat.min_eq_left hp]
  rfl

/-- Settles O27: the streamed hash by induction on the bytes, each HUPD one step of the wrapping accumulator. -/
theorem hupdStepsTheHash : Obligations.HupdStepsTheHash :=
  ⟨fun b s hb => ⟨encode_hupd_toNat hb, _, exec_hupd b s, rfl, haccUpdate_toNat s.hacc b⟩,
    fun u _ hs => performAll_hashLines u hs⟩

/-- Settles O26: HCLR is the starting accumulator 0 of 41_weakhash R120. -/
theorem hclrClearsHacc : Obligations.HclrClearsHacc := ⟨rfl, exec_hclr⟩

/-- Settles O28: the valid packed bytes are PBUF[0..PLEN-1], and the seed key is the low byte of their hash. -/
theorem hbufHashesTheValidBytes : Obligations.HbufHashesTheValidBytes := by
  refine ⟨rfl, fun s hp => ?_⟩
  rw [← pbufValid_of_plen_le hp]
  exact ⟨_, exec_hbuf s, rfl, rfl, hash32_setWidth_eight _⟩

end Sys2Proof.Machine
end

section
/-! PROOFS. The key update (42_obfuscator R144 to R146): in the ring of 32-bit words it is the affine map `k ↦ -131 k - 1`, and what
it does to the low bits of a key is said for `2^m` updates in a row. -/

namespace Sys2Proof.Machine

theorem keyNext_toNat (k : Word) : (keyNext k).toNat = 0xFFFFFFFF - (k.toNat * 131) % 2 ^ 32 := by
  rw [keyNext, BitVec.toNat_not, BitVec.toNat_ofNat, Config.keyMul]

theorem keyNext_toNat_affine (k : Word) : (keyNext k).toNat = (0xFFFFFF7D * k.toNat + 0xFFFFFFFF) % 2 ^ 32 := by
  rw [keyNext_toNat]
  omega

/-- Settles O31: the complement subtracts from `2^32 - 1`, and 0xFFFFFF7D is -131 mod `2^32`. -/
theorem keyUpdateIsAffine : Obligations.KeyUpdateIsAffine := fun k => ⟨keyNext_toNat k, keyNext_toNat_affine k⟩

/-- 42_obfuscator R145, in the ring of words. -/
theorem keyNext_eq (k : Word) : keyNext k = -131 * k - 1 := by
  have hcoeff : (-131 : Word) = 0xFFFFFF7D := by decide
  rw [hcoeff, BitVec.toNat_eq, keyNext_toNat_affine]
  bv_omega

theorem keyAfter_add (k : Word) (m n : Nat) : keyAfter k (m + n) = keyAfter (keyAfter k m) n := by
  induction m generalizing k with
  | zero => rw [Nat.zero_add, keyAfter]
  | succ m ih => rw [Nat.succ_add]; exact ih (keyNext k)

/-- `2^m` updates together are again an affine map; as -131 is 1 mod 4, its multiplier is 1 mod `2^(m+2)` and its constant an odd
multiple of `2^m`. -/
theorem exists_keyAfter_two_pow (m : Nat) :
    ∃ p q : Word, ∀ k, keyAfter k (2 ^ m) = k + 2 ^ m * (4 * p * k + 2 * q + 1) := by
  induction m with
  | zero => exact ⟨-33, -1, fun k => (keyNext_eq k).trans (by ring)⟩
  | succ m ih =>
    obtain ⟨p, q, h⟩ := ih
    refine ⟨p * (1 + 2 * p * 2 ^ m), q + p * 2 ^ m * (2 * q + 1), fun k => ?_⟩
    rw [pow_succ, Nat.mul_two, keyAfter_add, h, h]
    ring

/-- `2^m` updates keep the low `m` bits of a key and flip the next one. -/
theorem exists_odd_keyAfter_two_pow (k : Word) (m : Nat) : ∃ e, Odd e ∧ keyAfter k (2 ^ m) = k + 2 ^ m * e := by
  obtain ⟨p, q, h⟩ := exists_keyAfter_two_pow m
  exact ⟨4 * p * k + 2 * q + 1, ⟨2 * p * k + q, by ring⟩, h k⟩

theorem word_even_or_odd (d : Word) : Even d ∨ Odd d := by
  have hcast : (d.toNat : Word) = d := by rw [BitVec.natCast_eq_ofNat, BitVec.ofNat_toNat, BitVec.setWidth_eq]
  rw [← hcast]
  exact (Nat.even_or_odd d.toNat).imp Even.natCast Odd.natCast

/-- From any key, fewer than `2^m` updates reach any word's low `m` bits: where `n` updates agree with it below bit `m` and not at
bit `m`, `2^m` more agree there too. -/
theorem exists_keyAfter_low_bits (k b : Word) (m : Nat) : ∃ n < 2 ^ m, ∃ d, keyAfter k n = b + 2 ^ m * d := by
  induction m with
  | zero => exact ⟨0, Nat.one_pos, k - b, by rw [pow_zero, one_mul, add_sub_cancel, keyAfter]⟩
  | succ m ih =>
    obtain ⟨n, hn, d, hd⟩ := ih
    rcases word_even_or_odd d with ⟨e, rfl⟩ | hodd
    case inl => exact ⟨n, by omega, e, by rw [hd]; ring⟩
    case inr =>
      obtain ⟨c, hc, hstep⟩ := exists_odd_keyAfter_two_pow (keyAfter k n) m
      obtain ⟨e, he⟩ := hodd.add_odd hc
      refine ⟨n + 2 ^ m, by omega, e, ?_⟩
      calc keyAfter k (n + 2 ^ m)
          = b + 2 ^ m * (d + c) := by rw [keyAfter_add, hstep, hd]; ring
        _ = b + 2 ^ (m + 1) * e := by rw [he]; ring

theorem setWidth_eight_add_mul (x d : Word) : (x + 2 ^ 8 * d).setWidth 8 = x.setWidth 8 := by
  have hzero : ((2 ^ 8 : Word)).setWidth 8 = 0 := by decide
  rw [BitVec.setWidth_add _ _ (by decide), BitVec.setWidth_mul _ _ (by decide), hzero, zero_mul, add_zero]

/-- Settles O32: the low eight bits are the case `m = 8`, so the cycle is found from the multiplier and not by enumeration. -/
theorem lowKeyByteRunsOneFullCycle : Obligations.LowKeyByteRunsOneFullCycle := by
  refine ⟨fun k => ?next, fun k b => ?reached, fun k => ?back⟩
  case next => rw [keyNext_toNat_affine]; omega
  case reached =>
    obtain ⟨n, hn, d, hd⟩ := exists_keyAfter_low_bits k (b.setWidth 32) 8
    exact ⟨n, hn, by rw [hd, setWidth_eight_add_mul, BitVec.setWidth_setWidth_of_le b (by decide), BitVec.setWidth_eq]⟩
  case back =>
    obtain ⟨e, -, he⟩ := exists_odd_keyAfter_two_pow k 8
    exact (congrArg _ he).trans (setWidth_eight_add_mul k e)

end Sys2Proof.Machine
end

section
/-! PROOFS. The pure functions (42_obfuscator R140 to R143, R147, R148): the output's bytes one by one, and that XORing the same keys
twice gives the source back. -/

namespace Sys2Proof.Machine

theorem xorStream_xorStream (k : Word) (bs : List Byte) : xorStream k (xorStream k bs) = bs := by
  induction bs generalizing k with
  | nil => rfl
  | cons b rest ih => rw [xorStream, xorStream, ih, BitVec.xor_assoc, BitVec.xor_self, BitVec.xor_zero]

theorem xorStream_getD (k : Word) {bs : List Byte} {i : Nat} (hi : i < bs.length) :
    (xorStream k bs).getD i 0 = bs.getD i 0 ^^^ (keyAfter k i).setWidth 8 := by
  induction bs generalizing k i with
  | nil => contradiction
  | cons b rest ih =>
    cases i with
    | zero => rfl
    | succ i => exact ih (keyNext k) (Nat.lt_of_succ_lt_succ hi)

/-- 42_obfuscator R142. -/
theorem obfuscate_getD_zero (src : List Byte) : (obfuscate src).getD 0 0 = 3 := rfl

/-- 42_obfuscator R142: the seed key, in the clear. -/
theorem obfuscate_getD_one (src : List Byte) : (obfuscate src).getD 1 0 = hash8 src := rfl

theorem obfuscate_drop_hdrLen (src : List Byte) :
    (obfuscate src).drop Config.hdrLen = xorStream ((hash8 src).setWidth 32) src := rfl

/-- 42_obfuscator R143. -/
theorem obfuscate_getD_add_two {src : List Byte} {i : Nat} (hi : i < src.length) :
    (obfuscate src).getD (2 + i) 0 = src.getD i 0 ^^^ (keyAfter ((hash8 src).setWidth 32) i).setWidth 8 := by
  rw [← xorStream_getD _ hi, Nat.add_comm]
  rfl

theorem deobfuscate_obfuscate (src : List Byte) : deobfuscate (obfuscate src) = src := by
  rw [deobfuscate, obfuscate_getD_one, obfuscate_drop_hdrLen, xorStream_xorStream]

/-- Settles O33: the header gives the seed, and with it the stream undoes itself. -/
theorem deobfuscateUndoesObfuscate : Obligations.DeobfuscateUndoesObfuscate := fun src =>
  ⟨deobfuscate_obfuscate src, obfuscate_getD_zero src, obfuscate_getD_one src, obfuscate_length src⟩

end Sys2Proof.Machine
end

section
/-! PROOFS. The command OBF (42_obfuscator R149). -/

namespace Sys2Proof.Machine

theorem exec_obf (s : State) : exec .obf s = .next (obfOp s) := rfl

/-- 42_obfuscator R141: the seed key is the low byte of the hash, in a register of 32 bits. -/
theorem hash8_setWidth_word (bs : List Byte) : (hash8 bs).setWidth 32 = BitVec.ofNat 32 (hashH bs % 256) := by
  rw [← BitVec.ofNat_toNat, hash8, BitVec.toNat_ofNat]

theorem obfOp_read_obuf {s : State} (hp : s.plen.toNat ≤ 43) {k : Nat} (hk : k < s.plen.toNat + 2) :
    (obfOp s).mem.read (320 + k) = (obfuscate s.pbufValid).getD k 0 :=
  Memory.read_writeBytes_of_lt s.mem 320 (by rwa [obfuscate_pbufValid_length hp])

theorem obfOp_read_payload {s : State} (hp : s.plen.toNat ≤ 43) {i : Nat} (hi : i < s.plen.toNat) :
    (obfOp s).mem.read (322 + i) =
      s.mem.read (256 + i) ^^^ (keyAfter ((hash8 s.pbufValid).setWidth 32) i).setWidth 8 := by
  have hlen : i < s.pbufValid.length := by rw [State.pbufValid_length]; omega
  have hsrc : s.pbufValid.getD i 0 = s.mem.read (256 + i) := (byteAt_pbufValid s (by omega)).trans (if_pos hi)
  have hread : (obfOp s).mem.read (320 + (2 + i)) = (obfuscate s.pbufValid).getD (2 + i) 0 := obfOp_read_obuf hp (by omega)
  rw [← hsrc, ← obfuscate_getD_add_two hlen, ← hread, ← Nat.add_assoc]

/-- Settles O34: the source is PBUF[0..PLEN-1], and OBUF holds its obfuscation byte by byte. -/
theorem obfWritesHeaderAndPayload : Obligations.ObfWritesHeaderAndPayload := by
  refine ⟨rfl, fun s hp => ?_⟩
  intro n src seed
  have hsrc : src = s.pbufValid := (pbufValid_of_plen_le hp).symm
  have hseed : seed = (hash8 s.pbufValid).setWidth 32 := by rw [hash8_setWidth_word, ← hsrc]
  have hn : n = s.pbufValid.length := by rw [State.pbufValid_length, Nat.min_eq_left hp]
  have hone : (obfOp s).mem.read 321 = seed.setWidth 8 := by
    rw [hseed, BitVec.setWidth_setWidth_of_le _ (by decide), BitVec.setWidth_eq, ← obfuscate_getD_one]
    exact obfOp_read_obuf hp (k := 1) (by omega)
  refine ⟨obfOp s, exec_obf s, ?regs, obfOp_olen_toNat hp, obfOp_read_obuf hp (k := 0) (by omega), hone, ?payload,
    fun a ha => obfOp_read_of_outside s (by omega)⟩
  case regs => rw [hsrc, hseed, hn]; exact obfOp_eq s
  case payload => rw [hseed]; exact fun i hi => obfOp_read_payload hp hi

end Sys2Proof.Machine
end

section
/-! PROOFS. The alphabet and the characters of an encoding (43_base64 R160, R163, R166). -/

namespace Sys2Proof.Machine

/-- Settles O35: the 64 positions one by one, as the alphabet is a list of characters. -/
theorem alphabetCodes : Obligations.AlphabetCodes := by
  unfold Obligations.AlphabetCodes
  decide

theorem alphabet_nodup : alphabet.Nodup := by decide

/-- Settles O37: every character of an encoding comes from a 6-bit position, and the alphabet has one for each. -/
theorem encodeLengthAndCharacters : Obligations.EncodeLengthAndCharacters :=
  ⟨fun bs => ⟨b64encode_length bs, fun _ => mem_alphabet_of_mem_b64encode⟩, alphabet_length, alphabet_nodup, rfl, rfl⟩

end Sys2Proof.Machine
end

section
/-! PROOFS. The groups of an encoding (43_base64 R161, R162, R164): group `g` is cut from the bytes `3g`, `3g + 1` and `3g + 2`, a
missing one counting as 0. -/

namespace Sys2Proof.Machine

theorem append_byte_toNat {w : Nat} (x : BitVec w) (b : Byte) : (x ++ b).toNat = x.toNat * 256 + b.toNat := by
  rw [BitVec.toNat_append, ← Nat.shiftLeft_add_eq_or_of_lt b.isLt, Nat.shiftLeft_eq]

theorem extractLsb'_six_eq {w : Nat} {x : BitVec w} {k p : Nat} (h : x.toNat / 2 ^ k % 64 = p % 64) :
    x.extractLsb' k 6 = BitVec.ofNat 6 p :=
  BitVec.eq_of_toNat_eq (by rw [BitVec.extractLsb'_toNat, Nat.shiftRight_eq_div_pow, BitVec.toNat_ofNat]; exact h)

/-- 43_base64 R161: the positions of a group, by the bytes they are cut from. -/
theorem sextetsOf_eq (b0 b1 b2 : Byte) :
    sextetsOf b0 b1 b2 =
      [BitVec.ofNat 6 (b0.toNat / 4), BitVec.ofNat 6 (b0.toNat % 4 * 16 + b1.toNat / 16),
       BitVec.ofNat 6 (b1.toNat % 16 * 4 + b2.toNat / 64), BitVec.ofNat 6 (b2.toNat % 64)] := by
  have hchunk : (b0 ++ b1 ++ b2).toNat = (b0.toNat * 256 + b1.toNat) * 256 + b2.toNat := by
    rw [append_byte_toNat, append_byte_toNat]
  have h1 := b1.isLt
  have h2 := b2.isLt
  simp only [sextetsOf, List.cons.injEq, and_true]
  refine ⟨extractLsb'_six_eq ?_, extractLsb'_six_eq ?_, extractLsb'_six_eq ?_, extractLsb'_six_eq ?_⟩ <;> rw [hchunk] <;> omega

/-- 43_base64 R162: the first group, complete or not, and the groups after it. -/
theorem sextets_eq_append {bs : List Byte} (h : bs ≠ []) :
    sextets bs = sextetsOf (bs.getD 0 0) (bs.getD 1 0) (bs.getD 2 0) ++ sextets (bs.drop 3) :=
  match bs with
  | [] => absurd rfl h
  | [_] => rfl
  | [_, _] => rfl
  | _ :: _ :: _ :: _ => rfl

theorem ne_nil_of_lt_groups {bs : List Byte} {g : Nat} (hg : g < (bs.length + 2) / 3) : bs ≠ [] := by
  rintro rfl
  contradiction

/-- Every group of an encoding, by its bytes in the input: a group further on is one of the input less its first three bytes. -/
theorem sextets_getElem? {bs : List Byte} {g j : Nat} (hg : g < (bs.length + 2) / 3) (hj : j < 4) :
    (sextets bs)[4 * g + j]? =
      (sextetsOf (bs.getD (3 * g) 0) (bs.getD (3 * g + 1) 0) (bs.getD (3 * g + 2) 0))[j]? := by
  induction g generalizing bs with
  | zero =>
    rw [sextets_eq_append (ne_nil_of_lt_groups hg), Nat.mul_zero, Nat.zero_add, List.getElem?_append_left hj]
  | succ g ih =>
    have hrest : g < ((bs.drop 3).length + 2) / 3 := by rw [List.length_drop]; omega
    have hbyte (i : Nat) : (bs.drop 3).getD (3 * g + i) 0 = bs.getD (3 * (g + 1) + i) 0 := by
      have hi : 3 + (3 * g + i) = 3 * (g + 1) + i := by omega
      rw [List.getD_eq_getElem?_getD, List.getElem?_drop, hi, List.getD_eq_getElem?_getD]
    have hbyte0 : (bs.drop 3).getD (3 * g) 0 = bs.getD (3 * (g + 1)) 0 := hbyte 0
    have hj' : 4 * (g + 1) + j = 4 * g + j + 4 := by omega
    rw [sextets_eq_append (ne_nil_of_lt_groups hg), hj', List.getElem?_append_right (Nat.le_add_left 4 _),
      sextetsOf_length, Nat.add_sub_cancel, ih hrest, hbyte0, hbyte 1, hbyte 2]

theorem b64encode_getElem? {bs : List Byte} {g j : Nat} (hg : g < (bs.length + 2) / 3) (hj : j < 4) :
    (b64encode bs)[4 * g + j]? =
      (sextetsOf (bs.getD (3 * g) 0) (bs.getD (3 * g + 1) 0) (bs.getD (3 * g + 2) 0))[j]?.map alphaChar := by
  rw [b64encode, List.getElem?_map, sextets_getElem? hg hj]

/-- Settles O36: the length, and each of a group's four characters. -/
theorem encodeGroupsOfThree : Obligations.EncodeGroupsOfThree := by
  refine ⟨b64encode_length, fun bs g hg => ?_⟩
  have hchar {j : Nat} (hj : j < 4) := b64encode_getElem? hg hj
  simp only [sextetsOf_eq] at hchar
  exact ⟨hchar (j := 0) (by decide), hchar (j := 1) (by decide), hchar (j := 2) (by decide), hchar (j := 3) (by decide)⟩

/-- 43_base64 R164: a byte missing in a trailing group stands for a zero byte. -/
theorem sextets_concat_zero {bs : List Byte} (h : bs.length % 3 ≠ 0) : sextets (bs ++ [0]) = sextets bs := by
  induction bs using sextets.induct with
  | case1 => exact absurd rfl h
  | case2 b0 => rfl
  | case3 b0 b1 => rfl
  | case4 b0 b1 b2 rest ih =>
    have hrest : rest.length % 3 ≠ 0 := by rwa [← Nat.add_mod_right]
    exact congrArg (sextetsOf b0 b1 b2 ++ ·) (ih hrest)

theorem b64encode_concat_zero {bs : List Byte} (h : bs.length % 3 ≠ 0) : b64encode (bs ++ [0]) = b64encode bs := by
  rw [b64encode, sextets_concat_zero h, b64encode]

/-- Settles O38: two missing bytes are one and then another. -/
theorem encodeForgetsTrailingZeros : Obligations.EncodeForgetsTrailingZeros := by
  refine fun bs => ⟨fun h => (b64encode_concat_zero h).symm, fun h => ?_⟩
  have hone : bs.length % 3 ≠ 0 := by omega
  have htwo : (bs ++ [0]).length % 3 ≠ 0 := by rw [List.length_append, List.length_singleton]; omega
  calc b64encode bs
      = b64encode (bs ++ [0]) := (b64encode_concat_zero hone).symm
    _ = b64encode (bs ++ [0] ++ [0]) := (b64encode_concat_zero htwo).symm
    _ = b64encode (bs ++ [0, 0]) := by rw [List.append_assoc, List.singleton_append]

end Sys2Proof.Machine
end

section
/-! PROOFS. The command B64 (43_base64 R165). -/

namespace Sys2Proof.Machine

theorem exec_b64 (s : State) : exec .b64 s = .next (b64Op s) := rfl

/-- With OLEN in range nothing of the valid obfuscated bytes is cut (10_state R27, R32). -/
theorem obufValid_of_olen_le {s : State} (ho : s.olen.toNat ≤ 45) :
    s.obufValid = (List.range s.olen.toNat).map (fun k => s.mem.read (320 + k)) := by
  rw [State.obufValid, Config.obfLen, Nat.min_eq_left ho]
  rfl

/-- Settles O39: the token is the encoding of OBUF[0..OLEN-1], as long as the TLEN that B64 sets. -/
theorem b64WritesTheToken : Obligations.B64WritesTheToken := by
  refine ⟨rfl, fun s ho => ?_⟩
  intro n token
  have htoken : token = b64encode s.obufValid := congrArg b64encode (obufValid_of_olen_le ho).symm
  have htlen := b64Op_tlen_toNat ho
  have hlen := b64encode_obufValid_length ho
  refine ⟨b64Op s, exec_b64 s, b64Op_eq s, htlen, fun j hj => ?token, fun a ha => b64Op_read_of_outside s (by omega)⟩
  case token =>
    have hj' : j < (b64encode s.obufValid).length := by rwa [hlen, ← htlen]
    rw [htoken, List.getElem?_eq_getElem hj', Option.map_some]
    exact congrArg some (b64Op_read_tbuf hj').symm

end Sys2Proof.Machine
end

section
/-! PROOFS. The field policy of TokenState (44_tokenstate R180 to R182): the field files of INIT and REFRESH field by field, and the
commands NOP, INIT and REFRESH; and the fields no command but INIT and UNPACK changes (R189). -/

namespace Sys2Proof.Machine

theorem exec_nop (s : State) : exec .nop s = .next s := rfl

theorem exec_init (s : State) : exec .init s = .next { s with f := initFields s.a[0] s.hacc } := rfl

theorem exec_refresh (s : State) : exec .refresh s = .next (refreshOp s) := rfl

/-- 44_tokenstate R181: the other thirteen fields are 0. -/
theorem initFields_other (nonce uaHash : Word) (i : Fin 18) (hi : (i : Nat) ∉ [0, 3, 5, 13, 17]) :
    (initFields nonce uaHash)[i] = 0 := by
  obtain ⟨i, hlt⟩ := i
  match i with
  | 0 | 3 | 5 | 13 | 17 => simp at hi
  | 1 | 2 | 4 | 6 | 7 | 8 | 9 | 10 | 11 | 12 | 14 | 15 | 16 => rfl
  | _ + 18 => omega

/-- 44_tokenstate R182: "all other fields persist unchanged". -/
theorem refreshFields_other (f : Vector Word 18) (a : Vector Word 8) (i : Fin 18)
    (hi : (i : Nat) ∉ [1, 2, 7, 8, 9, 10, 11, 12, 15, 16]) : (refreshFields f a)[i] = f[i] := by
  obtain ⟨i, hlt⟩ := i
  match i with
  | 1 | 2 | 7 | 8 | 9 | 10 | 11 | 12 | 15 | 16 => simp at hi
  | 0 | 3 | 4 | 5 | 6 | 13 | 14 | 17 => rfl
  | _ + 18 => omega

theorem counterNext_toNat (c : Word) : (counterNext c).toNat = (c.toNat + 1) % 65536 := by
  rw [counterNext, Config.ctrMod, BitVec.toNat_ofNat]
  omega

theorem refreshFields_counter (f : Vector Word 18) (a : Vector Word 8) :
    (refreshFields f a)[16].toNat = (f[16].toNat + 1) % 65536 :=
  counterNext_toNat f[16]

/-- Settles O17: the word 0 decodes to NOP; a halted CORE discards the write. -/
theorem nopChangesNothing : Obligations.NopChangesNothing := by
  refine ⟨exec_nop, rfl, fun s => ?_⟩
  cases hs : s.halted with
  | true => exact perform_write_halted hs
  | false => exact (perform_cmdLine (s.not_halted_iff.mp hs) (i := .nop) rfl).trans (exec_nop s)

/-- Settles O18: the five fields by their places in the file, the others by `initFields_other`. -/
theorem initSetsTheFieldFile : Obligations.InitSetsTheFieldFile :=
  ⟨rfl, fun s => ⟨_, exec_init s, rfl, rfl, rfl, rfl, rfl, rfl, initFields_other s.a[0] s.hacc⟩⟩

/-- Settles O19: the ten refreshed fields by their places in the file, the others by `refreshFields_other`. -/
theorem refreshMutatesTheSubset : Obligations.RefreshMutatesTheSubset :=
  ⟨rfl, fun s => ⟨refreshOp s, exec_refresh s, refreshOp_eq s, rfl, rfl, rfl, rfl, rfl, rfl, rfl, rfl, rfl,
    refreshFields_counter s.f s.a, refreshFields_other s.f s.a⟩⟩

theorem not_refreshed_of_constant : ∀ j : Fin 18, (j : Nat) ∈ [0, 3, 4, 5, 6, 13, 14, 17] →
    (j : Nat) ∉ [1, 2, 7, 8, 9, 10, 11, 12, 15, 16] := by decide

/-- Settles O43: only four commands write F, and the two of them left take F to `refreshFields`. -/
theorem constantsPersist : Obligations.ConstantsPersist := by
  intro i s hinit hunpack
  obtain ⟨t, h⟩ := exec_answers i s
  refine ⟨t, h, fun j hj => ?_⟩
  have hrefreshed : (refreshFields s.f s.a)[j] = s.f[j] := refreshFields_other s.f s.a j (not_refreshed_of_constant j hj)
  by_cases hrefresh : i = .refresh
  · subst hrefresh
    cases h
    exact hrefreshed
  · by_cases hemit : i = .emit
    · subst hemit
      cases h
      exact hrefreshed
    · rw [exec_f h hinit hrefresh hunpack hemit]

end Sys2Proof.Machine
end

section
/-! PROOFS. The command EMIT (44_tokenstate R183): the four changes of state it composes, and what it leaves in each buffer. -/

namespace Sys2Proof.Machine

/-- EMIT as a change of state. -/
def emitOp (s : State) : State := b64Op (obfOp (packOp (refreshOp s)))

/-- The packed fields of an EMIT from `s`. -/
def emitPacked (s : State) : List Byte := packFields Config.widths (fieldValues (refreshFields s.f s.a))

theorem exec_pack (s : State) : exec .pack s = .next (packOp s) := rfl

theorem exec_emit (s : State) : exec .emit s = .next (emitOp s) := rfl

theorem emitPacked_length (s : State) : (emitPacked s).length = 43 := packFields_widths_length _

theorem obfuscate_emitPacked_length (s : State) : (obfuscate (emitPacked s)).length = 45 := by
  rw [obfuscate_length, emitPacked_length]

/-- After OBF the valid obfuscated bytes are the obfuscated source. -/
theorem obfOp_obufValid {s : State} (hp : s.plen.toNat ≤ 43) : (obfOp s).obufValid = obfuscate s.pbufValid := by
  have hbytes := Memory.bytes_writeBytes s.mem Config.obufBase (obfuscate s.pbufValid)
  rw [obfuscate_pbufValid_length hp] at hbytes
  rw [State.obufValid, obfOp_olen_toNat hp, Config.obfLen, Nat.min_eq_left (Nat.add_le_add_right hp 2)]
  exact hbytes

/-- OBF takes the packed fields as its source. -/
theorem pack_refresh_pbufValid (s : State) : (packOp (refreshOp s)).pbufValid = emitPacked s := packOp_pbufValid (refreshOp s)

theorem packOp_plen_toNat_le (s : State) : (packOp s).plen.toNat ≤ 43 := Nat.le_refl 43

/-- B64 takes the obfuscated fields as its source. -/
theorem obf_pack_refresh_obufValid (s : State) : (obfOp (packOp (refreshOp s))).obufValid = obfuscate (emitPacked s) := by
  rw [obfOp_obufValid (packOp_plen_toNat_le _), pack_refresh_pbufValid]

theorem emit_token_length (s : State) : (b64encode (obfuscate (emitPacked s))).length = 60 := by
  rw [b64encode_length, obfuscate_emitPacked_length]

/-- The registers after an EMIT. -/
theorem emitOp_eq (s : State) :
    emitOp s = { s with f := refreshFields s.f s.a, hacc := hash32 (emitPacked s),
                        key := keyAfter ((hash8 (emitPacked s)).setWidth 32) 43, plen := 43, olen := 45, tlen := 60,
                        mem := (emitOp s).mem } := by
  have hkey : (emitOp s).key = keyAfter ((hash8 (emitPacked s)).setWidth 32) (emitPacked s).length := by
    rw [← pack_refresh_pbufValid]; rfl
  have hhacc : (emitOp s).hacc = hash32 (emitPacked s) := by rw [← pack_refresh_pbufValid]; rfl
  have holen : (obfOp (packOp (refreshOp s))).olen = 45 := rfl
  have htlen : (emitOp s).tlen = 60 := by rw [emitOp, b64Op_eq, holen]; rfl
  rw [emitPacked_length] at hkey
  rw [← hkey, ← hhacc, ← htlen]
  rfl

/-- What is written stands in memory byte by byte. -/
theorem Memory.getElem?_writeBytes (m : Memory) (base : Nat) {bs : List Byte} {k : Nat} (hk : k < bs.length) :
    bs[k]? = some ((m.writeBytes base bs).read (base + k)) := by
  rw [Memory.read_writeBytes_of_lt m base hk, List.getD_eq_getElem _ _ hk, List.getElem?_eq_getElem hk]

/-- OBF and B64 write above PBUF only. -/
theorem emitOp_read_of_lt (s : State) {a : Nat} (ha : a < 320) : (emitOp s).mem.read a = (packOp (refreshOp s)).mem.read a := by
  rw [emitOp, b64Op_read_of_outside _ (by omega), obfOp_read_of_outside _ (by omega)]

theorem emitOp_read_pbuf (s : State) {k : Nat} (hk : k < 43) : (emitPacked s)[k]? = some ((emitOp s).mem.read (256 + k)) := by
  rw [emitOp_read_of_lt s (by omega)]
  exact Memory.getElem?_writeBytes s.mem 256 (by rwa [emitPacked_length])

theorem emitOp_read_obuf (s : State) {k : Nat} (hk : k < 45) :
    (obfuscate (emitPacked s))[k]? = some ((emitOp s).mem.read (320 + k)) := by
  have hlen : k < (obfuscate (emitPacked s)).length := by rwa [obfuscate_emitPacked_length]
  rw [emitOp, b64Op_read_of_outside _ (by omega), obfOp_eq, pack_refresh_pbufValid]
  exact Memory.getElem?_writeBytes _ 320 hlen

theorem emitOp_read_tbuf (s : State) {k : Nat} (hk : k < 60) :
    ((b64encode (obfuscate (emitPacked s)))[k]?).map asciiCode = some ((emitOp s).mem.read (384 + k)) := by
  have hlen : k < ((b64encode (obfuscate (emitPacked s))).map asciiCode).length := by rwa [List.length_map, emit_token_length]
  rw [emitOp, b64Op_eq, obf_pack_refresh_obufValid, ← List.getElem?_map]
  exact Memory.getElem?_writeBytes _ 384 hlen

/-- A command line whose command answers `t` goes on from `t`. -/
theorem performAll_cmdLine_cons {i : Instr} {s t : State} (hs : s.fcode = 0) (hwf : i.wellFormed = true)
    (he : exec i s = .next t) (rest : List HostOp) : performAll (cmdLine i :: rest) s = performAll rest t :=
  performAll_cons _ _ _ _ ((perform_cmdLine hs hwf).trans he)

/-- 44_tokenstate R183: no command of the four halts the CORE, so that each starts where the one before it ended. -/
theorem performAll_pipeline {s : State} (hs : s.fcode = 0) :
    performAll [cmdLine .refresh, cmdLine .pack, cmdLine .obf, cmdLine .b64] s = .next (emitOp s) := by
  have hpack := performAll_cmdLine_cons (s := refreshOp s) hs rfl (exec_pack _)
  have hobf := performAll_cmdLine_cons (s := packOp (refreshOp s)) hs rfl (exec_obf _)
  have hb64 := performAll_cmdLine_cons (s := obfOp (packOp (refreshOp s))) hs rfl (exec_b64 _)
  rw [performAll_cmdLine_cons hs rfl (exec_refresh s), hpack, hobf, hb64]
  rfl

/-- Settles O40: EMIT is the composition of the four commands' changes of state, each the source of the next. -/
theorem emitRunsThePipeline : Obligations.EmitRunsThePipeline := by
  refine ⟨rfl, fun s hs => ?pipeline, fun s => ⟨refreshOp s, emitOp s, exec_refresh s, exec_emit s, emitOp_eq s,
    fun k => emitOp_read_pbuf s, fun k => emitOp_read_obuf s, fun k => emitOp_read_tbuf s,
    fun a ha => emit_read_of_outside s (by omega) (by omega) (by omega)⟩⟩
  case pipeline => rw [performAll_pipeline hs, perform_cmdLine hs rfl, exec_emit]

end Sys2Proof.Machine
end

section
/-! PROOFS. The token's characters (44_tokenstate R187). -/

namespace Sys2Proof.Machine

theorem emitOp_read_token (s : State) {k : Nat} {c : Char} (hk : k < 60)
    (hc : (b64encode (obfuscate (emitPacked s)))[k]? = some c) : (emitOp s).mem.read (384 + k) = asciiCode c := by
  have hread := emitOp_read_tbuf s hk
  rw [hc] at hread
  exact (Option.some.inj hread).symm

theorem emitOp_token_mem_alphabet (s : State) {k : Nat} (hk : k < 60) :
    ∃ c ∈ alphabet, (emitOp s).mem.read (384 + k) = asciiCode c := by
  have hlen : k < (b64encode (obfuscate (emitPacked s))).length := by rwa [emit_token_length]
  exact ⟨_, mem_alphabet_of_mem_b64encode (List.getElem_mem hlen), emitOp_read_token s hk (List.getElem?_eq_getElem hlen)⟩

/-- Settles O41: the first two characters are cut from the header bytes (42_obfuscator R142), 3 and the seed key, which OBUF[1]
holds. -/
theorem tokenWireFormat : Obligations.TokenWireFormat := by
  intro s
  have hseed : (obfuscate (emitPacked s)).getD 1 0 = (emitOp s).mem.read 321 := by
    rw [List.getD_eq_getElem?_getD, emitOp_read_obuf s (k := 1) (by decide), Option.getD_some]
  have hgroups : 0 < ((obfuscate (emitPacked s)).length + 2) / 3 := by rw [obfuscate_emitPacked_length]; decide
  obtain ⟨hfirst, hsecond, -, -⟩ := encodeGroupsOfThree.2 (obfuscate (emitPacked s)) 0 hgroups
  simp only [Nat.mul_zero, Nat.zero_add, obfuscate_getD_zero, hseed] at hfirst hsecond
  exact ⟨emitOp s, exec_emit s, congrArg State.tlen (emitOp_eq s), fun k => emitOp_token_mem_alphabet s,
    emitOp_read_token s (k := 0) (by decide) hfirst, emitOp_read_token s (k := 1) (by decide) hsecond⟩

end Sys2Proof.Machine
end

section
/-! PROOFS. The counter along emissions (44_tokenstate R186). -/

namespace Sys2Proof.Machine

theorem emitOp_f (s : State) : (emitOp s).f = refreshFields s.f s.a := rfl

/-- A run of `k` EMIT lines on a running CORE. -/
theorem performAll_emits (k : Nat) {s : State} (hs : s.fcode = 0) :
    performAll (List.replicate k (cmdLine .emit)) s = .next (emitOp^[k] s) := by
  induction k generalizing s with
  | zero => rfl
  | succ k ih =>
    rw [List.replicate_succ, performAll_cmdLine_cons hs rfl (exec_emit s), Function.iterate_succ_apply]
    exact ih hs

/-- From a counter of 0, the counter counts the emissions mod 65536 (44_tokenstate R186). -/
theorem emits_counter (k : Nat) {s : State} (h0 : s.f[16] = 0) : (emitOp^[k] s).f[16].toNat = k % 65536 := by
  induction k with
  | zero => rw [Function.iterate_zero_apply, h0]; rfl
  | succ k ih => rw [Function.iterate_succ_apply', emitOp_f, refreshFields_counter, ih, Nat.mod_add_mod]

/-- The increment precedes the pack, so that the token carries the counter that the EMIT leaves (log 11). -/
theorem emitOp_read_field (s : State) (i : Fin 18) {k : Nat} (hk : k < widthRom i) :
    ((emitOp s).mem.read (256 + (fieldOffset i + k))).toNat = (emitOp s).f[i].toNat / 256 ^ (widthRom i - 1 - k) % 256 := by
  have hend := fieldOffset_add_widthRom_le i
  rw [emitOp_read_of_lt s (by omega)]
  exact packOp_read_field (refreshOp s) i hk

/-- PBUF[40] and PBUF[41] are the two bytes of field 16. -/
theorem emitOp_read_counter (s : State) :
    ((emitOp s).mem.read (256 + 40)).toNat = (emitOp s).f[16].toNat / 256 % 256 ∧
    ((emitOp s).mem.read (256 + 41)).toNat = (emitOp s).f[16].toNat % 256 := by
  refine ⟨emitOp_read_field s 16 (k := 0) (by decide), ?_⟩
  rw [← Nat.div_one (emitOp s).f[16].toNat]
  exact emitOp_read_field s 16 (k := 1) (by decide)

/-- The last of `k` emissions from a counter of 0 packed the counter it left. -/
theorem emits_read_counter {k : Nat} (hk : 0 < k) {s : State} (h0 : s.f[16] = 0) :
    ((emitOp^[k] s).mem.read (256 + 40)).toNat = k % 65536 / 256 ∧ ((emitOp^[k] s).mem.read (256 + 41)).toNat = k % 256 := by
  obtain ⟨k, rfl⟩ := Nat.exists_eq_succ_of_ne_zero hk.ne'
  have hcounter := emits_counter (k + 1) h0
  rw [Function.iterate_succ_apply'] at hcounter ⊢
  obtain ⟨hhigh, hlow⟩ := emitOp_read_counter (emitOp^[k] s)
  rw [hhigh, hlow, hcounter]
  omega

/-- Settles O42: INIT sets the counter to 0, and each EMIT counts before it packs. -/
theorem kthEmissionCarriesK : Obligations.KthEmissionCarriesK := fun k s hs =>
  ⟨_, (performAll_cmdLine_cons hs rfl (exec_init s) _).trans (performAll_emits k hs), emits_counter k rfl,
    fun hk => emits_read_counter hk rfl⟩

end Sys2Proof.Machine
end

section
/-! PROOFS. Packing in range (44_tokenstate R184; 40_fieldcodec R111): the draws keep the refreshed fields within their widths, and
such fields survive the codec. -/

namespace Sys2Proof.Machine

/-- 40_fieldcodec R111: the check of the field file, field by field. -/
theorem fieldsFit_of_toNat_lt {f : Vector Word 18} (h : ∀ i : Fin 18, f[i].toNat < 2 ^ (8 * widthRom i)) :
    fieldsFit f = true := by
  refine List.all_eq_true.mpr fun p hp => decide_eq_true ?_
  obtain ⟨i, hi, rfl⟩ := List.getElem_of_mem hp
  have hi' : i < 18 := by simpa [Config.widths] using hi
  have hwidth : widthRom ⟨i, hi'⟩ = Config.widths[i] := List.getD_eq_getElem _ _ hi'
  have hvalue : (fieldValues f)[i]'(by rwa [fieldValues_length]) = f[i].toNat := by simp [fieldValues]
  rw [List.getElem_zip, hvalue]
  exact hwidth ▸ h ⟨i, hi'⟩

theorem fieldsFit_refreshFields {f : Vector Word 18} {a : Vector Word 8} (hf : fieldsFit f = true)
    (ha : operandsInRange a = true) : fieldsFit (refreshFields f a) = true := by
  simp only [operandsInRange, Bool.and_eq_true, decide_eq_true_eq] at ha
  obtain ⟨⟨⟨⟨⟨h7, h8⟩, h9⟩, h10⟩, h11⟩, h12⟩ := ha
  have hcounter := refreshFields_counter f a
  refine fieldsFit_of_toNat_lt fun ⟨i, hlt⟩ => ?_
  match i with
  | 0 | 3 | 4 | 5 | 6 | 13 | 14 | 17 => exact toNat_lt_of_fieldsFit hf ⟨_, hlt⟩
  | 1 => exact a[0].isLt
  | 2 => exact a[1].isLt
  | 7 => exact h7.trans_lt (show 10000 < 2 ^ 24 by decide)
  | 8 => exact h8.trans_lt (show 10000 < 2 ^ 16 by decide)
  | 9 => exact h9.trans_lt (show 10000 < 2 ^ 16 by decide)
  | 10 => exact h10.trans_lt (show 10000 < 2 ^ 16 by decide)
  | 11 => exact h11.trans_lt (show 1920 < 2 ^ 16 by decide)
  | 12 => exact h12.trans_lt (show 1080 < 2 ^ 16 by decide)
  | 15 => exact Nat.two_pow_pos _
  | 16 => exact hcounter.trans_lt (Nat.mod_lt _ (by decide))
  | _ + 18 => omega

/-- 40_fieldcodec R111: where every field fits its width, packing loses nothing. -/
theorem fieldFileOf_packFields {f : Vector Word 18} (h : fieldsFit f = true) :
    fieldFileOf (packFields Config.widths (fieldValues f)) = f :=
  fieldFile_ext fun i => by
    rw [fieldFileOf_toNat, unpackFields_packFields_getD (fieldValues_length f), fieldValues_getD]
    exact Nat.mod_eq_of_lt (toNat_lt_of_fieldsFit h i)

theorem emitOp_bytes_pbuf (s : State) : (emitOp s).mem.bytes 256 43 = emitPacked s := calc
  (emitOp s).mem.bytes 256 43 = (packOp (refreshOp s)).mem.bytes 256 43 :=
    Memory.bytes_congr fun k hk => emitOp_read_of_lt s (by omega)
  _ = emitPacked s := pack_refresh_pbufValid s

/-- Settles O52: the draws' ranges keep the refreshed fields within their widths, and such fields survive the codec. -/
theorem inRangeDrawsSurvivePacking : Obligations.InRangeDrawsSurvivePacking := by
  intro s hf ha
  have hfit : fieldsFit (emitOp s).f = true := fieldsFit_refreshFields hf ha
  exact ⟨emitOp s, exec_emit s, hfit, (congrArg fieldFileOf (emitOp_bytes_pbuf s)).trans (fieldFileOf_packFields hfit)⟩

end Sys2Proof.Machine
end

section
/-! PROOFS. What a script delivers depends on the hardware part of the state alone (44_tokenstate R188). -/

namespace Sys2Proof.Machine

theorem State.regValue_coreOf (s : State) (r : Reg) : s.coreOf.regValue r = s.regValue r := by cases r <;> rfl

theorem State.raise_delivered (s : State) (p : PortFault) (n : Word) : (s.raise p n).delivered = s.delivered := by
  cases hs : s.halted with
  | true => rw [State.raise_of_halted _ _ _ hs]
  | false => rw [State.raise_of_running _ _ _ hs]; rfl

@[simp] theorem State.coreOf_delivered (s : State) : s.coreOf.delivered = [] := rfl

/-- `HostRead(n)` returns what it would return with the host's side blanked (20_memory R52). -/
theorem hostRead_delivered (n : Word) (s : State) :
    (hostRead n s).delivered = s.delivered ++ (hostRead n s.coreOf).delivered := by
  unfold hostRead
  cases regOf n with
  | none => simp [State.raise_delivered]
  | some r =>
    cases hr : r.readable with
    | true => simp [hr, State.regValue_coreOf]
    | false => simp [hr, State.raise_delivered]

/-- A write returns no value to the host. -/
theorem perform_write_delivered {n v : Word} {s t : State} (h : perform (.write n v) s = .next t) :
    t.delivered = s.delivered := by
  rcases perform_cases _ s t h with ⟨⟨⟩, -⟩ | ⟨_, _, ⟨⟩, -⟩ | ⟨_, ⟨⟩, -⟩ | ⟨_, _, -, -, rfl⟩ | ⟨_, _, -, -, -, he⟩ |
    ⟨_, _, -, -, -, rfl⟩ | ⟨_, v, r, -, -, -, -, -, -, rfl⟩ | ⟨_, _, _, -, -, -, -, -, rfl⟩ | ⟨_, _, -, -, -, rfl⟩
  · rfl
  · obtain ⟨-, -, -, -, -, hdelivered⟩ := exec_frame he
    exact hdelivered
  · rfl
  · obtain ⟨-, -, -, -, -, -, hdelivered⟩ := State.regWrite_frame r v s
    exact hdelivered
  · rfl
  · rfl

/-- One operation delivers what it delivers with the host's side blanked. -/
theorem perform_delivered {op : HostOp} {s t u : State} (ht : perform op s = .next t) (hu : perform op s.coreOf = .next u) :
    t.delivered = s.delivered ++ u.delivered := by
  cases op with
  | reset => cases ht; cases hu; simp
  | read n => cases ht; cases hu; exact hostRead_delivered n s
  | write n v => rw [perform_write_delivered ht, perform_write_delivered hu, State.coreOf_delivered, List.append_nil]

/-- 44_tokenstate R188, for one operation. -/
theorem perform_deterministic (op : HostOp) {s s' : State} (h : s.coreOf = s'.coreOf) :
    ∃ t t' vs, perform op s = .next t ∧ perform op s' = .next t' ∧ t.coreOf = t'.coreOf ∧
      t.delivered = s.delivered ++ vs ∧ t'.delivered = s'.delivered ++ vs := by
  obtain ⟨t, t', ht, ht', hcore⟩ := perform_congr_coreOf op h
  obtain ⟨u, hu⟩ := perform_answers op s.coreOf
  exact ⟨t, t', u.delivered, ht, ht', hcore, perform_delivered ht hu, perform_delivered ht' (h ▸ hu)⟩

/-- Settles O54, by induction on the script. -/
theorem sameScriptSameResult : Obligations.SameScriptSameResult := by
  intro ops
  induction ops with
  | nil => exact fun s s' h => ⟨s, s', [], rfl, rfl, h, (List.append_nil _).symm, (List.append_nil _).symm⟩
  | cons op ops ih =>
    intro s s' h
    obtain ⟨t, t', vs, ht, ht', hcore, hvs, hvs'⟩ := perform_deterministic op h
    obtain ⟨u, u', ws, hu, hu', hcore', hws, hws'⟩ := ih t t' hcore
    rw [performAll_cons op ops s t ht, performAll_cons op ops s' t' ht']
    exact ⟨u, u', vs ++ ws, hu, hu', hcore', by rw [hws, hvs, List.append_assoc], by rw [hws', hvs', List.append_assoc]⟩

end Sys2Proof.Machine
end

section
/-! PROOFS. The halted state (60_exceptions R209, R211): what a read of a number that is not readable answers, and that nothing but
a reset changes the hardware of a halted CORE. -/

namespace Sys2Proof.Machine

variable {s t : State} {op : HostOp} {n : Word}

/-- CMD is the one mapped register without a read (20_memory R51). -/
theorem not_readable_of_unmapped_or_cmd (h : regOf n = none ∨ n = 0) : ∀ r, regOf n = some r → r.readable = false := by
  intro r hr
  rcases h with hnone | rfl
  · cases hnone.symm.trans hr
  · cases (regOf_of_number (r := .cmd) rfl).symm.trans hr
    rfl

theorem perform_read_unreadable_halted (hs : s.halted = true) (hr : ∀ r, regOf n = some r → r.readable = false) :
    perform (.read n) s = .next (s.deliver 0) := by
  rw [perform_read_unreadable hr, State.raise_of_halted _ _ _ hs]

/-- A read delivers a value to the host and changes nothing of a halted CORE. -/
theorem hostRead_coreOf_of_halted (hs : s.halted = true) : (hostRead n s).coreOf = s.coreOf := by
  simp only [hostRead, State.raise_of_halted _ _ _ hs]
  split
  · split <;> rfl
  · rfl

theorem perform_coreOf_of_halted (hs : s.halted = true) (hop : op ≠ .reset) (h : perform op s = .next t) :
    t.coreOf = s.coreOf := by
  cases op with
  | reset => contradiction
  | read n => cases h; exact hostRead_coreOf_of_halted hs
  | write n v => cases (perform_write_halted hs).symm.trans h; rfl

theorem State.fault_eq_of_coreOf_eq (h : t.coreOf = s.coreOf) : t.fcode = s.fcode ∧ t.finfo = s.finfo :=
  ⟨show t.coreOf.fcode = s.coreOf.fcode by rw [h], show t.coreOf.finfo = s.coreOf.finfo by rw [h]⟩

/-- Settles O4, by induction on the script: each operation leaves the CORE as it was, hence halted. -/
theorem haltedCoreStaysFrozenAlongScripts : Obligations.HaltedCoreStaysFrozenAlongScripts := by
  intro ops
  induction ops with
  | nil => exact fun s _ _ => ⟨s, rfl, rfl⟩
  | cons op ops ih =>
    intro s hs hreset
    obtain ⟨hop, hops⟩ := not_or.mp (mt List.mem_cons.mpr hreset)
    obtain ⟨t, ht⟩ := perform_answers op s
    have hcore : t.coreOf = s.coreOf := perform_coreOf_of_halted (s.halted_iff.mpr hs) (Ne.symm hop) ht
    obtain ⟨hfcode, -⟩ := State.fault_eq_of_coreOf_eq hcore
    obtain ⟨u, hu, hucore⟩ := ih t (hfcode ▸ hs) hops
    exact ⟨u, (performAll_cons op ops s t ht).trans hu, hucore.trans hcore⟩

/-- Settles O3: the port's rules for a halted CORE, one per clause. -/
theorem haltedStateFreezesTheCore : Obligations.HaltedStateFreezesTheCore := by
  intro s hfcode
  have hs : s.halted = true := s.halted_iff.mpr hfcode
  refine ⟨fun _ _ => perform_write_halted hs, fun n r hr hn => perform_read hr (Reg.readable_of_ne_cmd ?mapped),
    fun n hn => perform_read_unreadable_halted hs (not_readable_of_unmapped_or_cmd hn), ⟨_, rfl, rfl⟩, ?endsWell⟩
  case mapped => rintro rfl; exact hn (regOf_eq_cmd n hr)
  case endsWell => rw [State.endsWell, hs, Bool.not_true, Bool.and_false]

/-- Settles O46: every command answers, and none writes the fault registers. -/
theorem noEngineFaults : Obligations.NoEngineFaults := by
  intro i s
  obtain ⟨t, h⟩ := exec_answers i s
  obtain ⟨-, hfcode, hfinfo, -⟩ := exec_frame h
  exact ⟨t, h, hfcode, hfinfo⟩

end Sys2Proof.Machine
end

section
/-! PROOFS. The host's duty at the port (70_reset_and_hazards R237), one rule per case of the port, and what an operation that breaks
it does to a CORE that is not halted (60_exceptions R200, R208). -/

namespace Sys2Proof.Machine

section
variable {n v : Word} {r : Reg}

theorem HostOp.keepsPortDuty_read (hr : regOf n = some r) : (HostOp.read n).keepsPortDuty = r.readable := by
  simp [HostOp.keepsPortDuty, hr]

theorem HostOp.keepsPortDuty_read_eq_false_iff :
    (HostOp.read n).keepsPortDuty = false ↔ ∀ r, regOf n = some r → r.readable = false := by
  cases hr : regOf n with
  | none => simp [HostOp.keepsPortDuty, hr]
  | some r => simp [HostOp.keepsPortDuty_read hr]

theorem HostOp.keepsPortDuty_write (hr : regOf n = some r) (hcmd : r ≠ .cmd) :
    (HostOp.write n v).keepsPortDuty = (r.writable && r.legalData v) := by
  cases r with
  | cmd => exact absurd rfl hcmd
  | _ => simp only [HostOp.keepsPortDuty, hr]

theorem HostOp.keepsPortDuty_write_unwritable (hr : ∀ r, regOf n = some r → r.writable = false) :
    (HostOp.write n v).keepsPortDuty = false := by
  cases hn : regOf n with
  | none => simp [HostOp.keepsPortDuty, hn]
  | some r =>
    have hw : r.writable = false := hr r hn
    rw [HostOp.keepsPortDuty_write hn (by rintro rfl; cases hw), hw, Bool.false_and]

theorem HostOp.keepsPortDuty_command {i : Instr} (hd : Sys2Proof.decode v = .ok i) :
    (HostOp.write 0 v).keepsPortDuty = true := by
  have hr : regOf 0 = some .cmd := regOf_of_number rfl
  simp only [HostOp.keepsPortDuty, hr, hd]

theorem HostOp.keepsPortDuty_illegalWord {e : IllegalWord} (hd : Sys2Proof.decode v = .error e) :
    (HostOp.write 0 v).keepsPortDuty = false := by
  have hr : regOf 0 = some .cmd := regOf_of_number rfl
  simp only [HostOp.keepsPortDuty, hr, hd]

end

/-- The operations that can raise a fault with a given information word: the columns "raised by" and FINFO of 60_exceptions R200. -/
def PortFault.FitsOp (info : Word) (op : HostOp) : PortFault → Prop
  | .illegalCmd => op = .write 0 info
  | .badReg => op = .read info ∨ ∃ v, op = .write info v
  | .badValue => ∃ v, op = .write info v

theorem PortFault.code_ne_zero (p : PortFault) : p.code ≠ 0 := by cases p <;> decide

/-- Everything an operation can do to FCODE of a CORE that is not halted: it keeps the port duty and records nothing, or breaks it
and is the fault entry of 60_exceptions R208. -/
theorem perform_running_cases {op : HostOp} {s t : State} (hfcode : s.fcode = 0) (h : perform op s = .next t) :
    (op.keepsPortDuty = true ∧ t.fcode = 0) ∨
    (op.keepsPortDuty = false ∧ ∃ (p : PortFault) (info : Word) (vs : List Word), p.FitsOp info op ∧
      t = { s with fcode := p.code, finfo := info, delivered := vs }) := by
  have hrun : s.halted = false := s.not_halted_iff.mpr hfcode
  rcases perform_cases op s t h with ⟨rfl, rfl⟩ | ⟨n, r, rfl, hr, hread, rfl⟩ | ⟨n, rfl, hr, rfl⟩ | ⟨n, v, -, hs, -⟩ |
    ⟨v, i, rfl, -, hd, he⟩ | ⟨v, e, rfl, -, hd, rfl⟩ | ⟨n, v, r, rfl, -, hr, hcmd, hw, hv, rfl⟩ |
    ⟨n, v, r, rfl, -, hr, hw, hv, rfl⟩ | ⟨n, v, rfl, -, hr, rfl⟩
  · exact .inl ⟨rfl, rfl⟩
  · exact .inl ⟨(HostOp.keepsPortDuty_read hr).trans hread, hfcode⟩
  · rw [State.raise_of_running _ _ _ hrun]
    exact .inr ⟨HostOp.keepsPortDuty_read_eq_false_iff.mpr hr, .badReg, n, _, .inl rfl, rfl⟩
  · cases hrun.symm.trans hs
  · obtain ⟨-, hkept, -⟩ := exec_frame he
    exact .inl ⟨HostOp.keepsPortDuty_command hd, hkept.trans hfcode⟩
  · exact .inr ⟨HostOp.keepsPortDuty_illegalWord hd, .illegalCmd, v, _, rfl, rfl⟩
  · obtain ⟨hkept, -⟩ := State.regWrite_frame r v s
    exact .inl ⟨by rw [HostOp.keepsPortDuty_write hr hcmd, hw, hv, Bool.and_self], hkept.trans hfcode⟩
  · have hcmd : r ≠ .cmd := by rintro rfl; cases hv
    exact .inr ⟨by rw [HostOp.keepsPortDuty_write hr hcmd, hv, Bool.and_false], .badValue, n, _, ⟨v, rfl⟩, rfl⟩
  · exact .inr ⟨HostOp.keepsPortDuty_write_unwritable hr, .badReg, n, _, .inr ⟨v, rfl⟩, rfl⟩

/-- Settles O15: no fault has the code 0. -/
theorem faultsExactlyWhenThePortDutyIsBroken : Obligations.FaultsExactlyWhenThePortDutyIsBroken := by
  intro s op hfcode
  obtain ⟨t, h⟩ := perform_answers op s
  refine ⟨t, h, ?_⟩
  rcases perform_running_cases hfcode h with ⟨hkeeps, hzero⟩ | ⟨hbreaks, p, info, vs, -, rfl⟩
  · simp [hkeeps, hzero]
  · exact iff_of_true p.code_ne_zero hbreaks

/-- Settles O16: an operation that leaves FCODE not 0 is the fault entry, and each fault has its code of 60_exceptions R200. -/
theorem faultEntryWritesOnlyFcodeAndFinfo : Obligations.FaultEntryWritesOnlyFcodeAndFinfo := by
  intro s t op hfcode h ht
  rcases perform_running_cases hfcode h with ⟨-, hzero⟩ | ⟨-, p, info, vs, hop, rfl⟩
  · exact absurd hzero ht
  · refine ⟨rfl, ?_⟩
    cases p with
    | illegalCmd => exact .inl ⟨rfl, hop⟩
    | badReg => exact .inr (.inl ⟨rfl, hop⟩)
    | badValue => exact .inr (.inr ⟨rfl, hop⟩)

/-- Settles O2: the hardware of a halted CORE does not change but by a reset, and no command writes the fault registers. -/
theorem onlyResetClearsAFault : Obligations.OnlyResetClearsAFault := by
  refine ⟨fun s op hne hop => ?halted, fun s => ⟨_, rfl, rfl, rfl⟩, noEngineFaults⟩
  case halted =>
    have hs : s.halted = true := s.halted_iff.mpr hne
    obtain ⟨t, h⟩ := perform_answers op s
    obtain ⟨hfcode, hfinfo⟩ := State.fault_eq_of_coreOf_eq (perform_coreOf_of_halted hs hop h)
    refine ⟨t, h, hfcode, hfinfo, fun hbreaks => ?_⟩
    cases op with
    | reset => contradiction
    | read n =>
      cases (perform_read_unreadable_halted hs (HostOp.keepsPortDuty_read_eq_false_iff.mp hbreaks)).symm.trans h
      exact .inr ⟨⟨n, rfl⟩, rfl⟩
    | write n v =>
      cases (perform_write_halted hs).symm.trans h
      exact .inl ⟨⟨n, v, rfl⟩, rfl⟩

end Sys2Proof.Machine
end

section
/-! PROOFS. A step answers a next state and takes one line of the script (10_state R34; 60_exceptions R204, R209). -/

namespace Sys2Proof.Machine

/-- Fault entry leaves the script (60_exceptions R208). -/
theorem State.raise_script (s : State) (p : PortFault) (n : Word) :
    (s.raise p n).pending = s.pending ∧ (s.raise p n).pc = s.pc := by
  cases hs : s.halted with
  | true => rw [State.raise_of_halted _ _ _ hs]; exact ⟨rfl, rfl⟩
  | false => rw [State.raise_of_running _ _ _ hs]; exact ⟨rfl, rfl⟩

/-- No host operation changes the script it stands in. -/
theorem perform_script {op : HostOp} {s t : State} (h : perform op s = .next t) : t.pending = s.pending ∧ t.pc = s.pc := by
  rcases perform_cases op s t h with ⟨-, rfl⟩ | ⟨n, r, -, -, -, rfl⟩ | ⟨n, -, -, rfl⟩ | ⟨n, v, -, -, rfl⟩ |
    ⟨v, i, -, -, -, he⟩ | ⟨v, e, -, -, -, rfl⟩ | ⟨n, v, r, -, -, -, -, -, -, rfl⟩ | ⟨n, v, r, -, -, -, -, -, rfl⟩ |
    ⟨n, v, -, -, -, rfl⟩
  · exact ⟨rfl, rfl⟩
  · exact ⟨rfl, rfl⟩
  · exact s.raise_script .badReg n
  · exact ⟨rfl, rfl⟩
  · obtain ⟨-, -, -, hpending, hpc, -⟩ := exec_frame he
    exact ⟨hpending, hpc⟩
  · exact ⟨rfl, rfl⟩
  · obtain ⟨-, -, -, -, hpending, hpc, -⟩ := State.regWrite_frame r v s
    exact ⟨hpending, hpc⟩
  · exact ⟨rfl, rfl⟩
  · exact ⟨rfl, rfl⟩

/-- Settles O47: a step takes the next line and performs it, or answers the same state. -/
theorem everyStepAnswers : Obligations.EveryStepAnswers := by
  intro s
  obtain ⟨hcons, hnil⟩ := stepPerformsOneHostOperation
  cases hp : s.pending with
  | nil => exact ⟨s, hnil s hp, fun hne => absurd rfl hne⟩
  | cons op rest =>
    obtain ⟨t, h⟩ := perform_answers op { s with pending := rest, pc := s.pc + 1 }
    obtain ⟨hpending, hpc⟩ := perform_script h
    exact ⟨t, (hcons s op rest hp).trans h, fun _ => ⟨hpc, hpending⟩⟩

end Sys2Proof.Machine
end

section
/-! PROOFS. Several COREs (60_exceptions R215): a step of one puts a state in its place of the list, and which one depends on that
CORE alone. -/

namespace Sys2Proof.Machine

/-- The step of CORE `k` is one change of the list at `k`, the same in every system whose CORE `k` is the same. Where `k` names no
CORE (log 4), setting the list at `k` changes nothing. -/
theorem systemStep_eq_set (k : Nat) (cores : List State) :
    ∃ t, ∀ others : List State, others[k]? = cores[k]? → systemStep k others = .next (others.set k t) := by
  cases hk : cores[k]? with
  | none =>
    refine ⟨State.reset, fun others h => ?_⟩
    rw [systemStep, h, List.set_eq_of_length_le (List.getElem?_eq_none_iff.mp h)]
  | some s =>
    obtain ⟨t, ht, -⟩ := everyStepAnswers s
    refine ⟨t, fun others h => ?_⟩
    simp only [systemStep, h, ht]

/-- Settles O55: changes of a list at two places commute, and each leaves the other place. -/
theorem instancesAreIndependent : Obligations.InstancesAreIndependent := by
  refine ⟨fun k cores => ?frame, fun j k cores hjk => ?commute⟩
  case frame =>
    obtain ⟨t, ht⟩ := systemStep_eq_set k cores
    exact ⟨_, ht cores rfl, List.length_set, fun j hjk => List.getElem?_set_ne hjk.symm⟩
  case commute =>
    obtain ⟨t, ht⟩ := systemStep_eq_set j cores
    obtain ⟨u, hu⟩ := systemStep_eq_set k cores
    refine ⟨_, _, (cores.set j t).set k u, ht cores rfl, hu cores rfl, hu _ (List.getElem?_set_ne hjk), ?_⟩
    rw [List.set_comm t u hjk]
    exact ht _ (List.getElem?_set_ne hjk.symm)

end Sys2Proof.Machine
end

section
/-! PROOFS. The host's two sequences, one rule per line or run of lines: a legal `wr`, `args`, `token` (30_encoding R89, R91);
then the boot and the per-emission lines as a whole (70_reset_and_hazards R232, R233). -/

namespace Sys2Proof.Machine

/-- A `wr` line on a running CORE writes its register (30_encoding R89). -/
theorem perform_wrLine {s : State} {r : Reg} {v : Word} (hs : s.fcode = 0) (hcmd : r ≠ .cmd) (hw : r.writable = true)
    (hv : r.legalData v = true) : perform (wrLine r v) s = .next (s.regWrite r v) :=
  perform_write_legal (s.not_halted_iff.mpr hs) (regOf_ofNat_number r) hcmd hw hv

/-- Every datum is legal for an operand register (20_memory R51). -/
theorem perform_wrLine_a {s : State} (hs : s.fcode = 0) (j : Fin 8) (v : Word) :
    perform (wrLine (.a j) v) s = .next { s with a := s.a.set j v } :=
  perform_wrLine (r := .a j) hs nofun rfl rfl

/-- The operand registers, from contents `a`, after writes of `v`'s elements with indices `js`, in that order. -/
def operandsAfter (v : Vector Word 8) (js : List (Fin 8)) (a : Vector Word 8) : Vector Word 8 :=
  js.foldl (fun a (j : Fin 8) => a.set j v[j]) a

theorem operandsAfter_getElem (v : Vector Word 8) (js : List (Fin 8)) (a : Vector Word 8) (i : Fin 8) :
    (operandsAfter v js a)[i] = if i ∈ js then v[i] else a[i] := by
  induction js generalizing a with
  | nil => rfl
  | cons j js ih =>
    rw [operandsAfter, List.foldl_cons, ← operandsAfter, ih]
    by_cases hij : i = j
    · subst hij
      simp
    · have hne : (j : Nat) ≠ i := fun h => hij (Fin.ext h.symm)
      simp [hij, hne]

/-- Writes to all eight registers leave nothing of what they held. -/
theorem operandsAfter_finRange (v a : Vector Word 8) : operandsAfter v (List.finRange 8) a = v :=
  Vector.ext fun i hi =>
    (operandsAfter_getElem v (List.finRange 8) a ⟨i, hi⟩).trans (if_pos (List.mem_finRange _))

theorem performAll_operandWrites (v : Vector Word 8) (js : List (Fin 8)) {s : State} (hs : s.fcode = 0) :
    performAll (js.map (fun (j : Fin 8) => wrLine (.a j) v[j])) s = .next { s with a := operandsAfter v js s.a } := by
  induction js generalizing s with
  | nil => rfl
  | cons j js ih => exact (performAll_cons _ _ _ _ (perform_wrLine_a hs j v[j])).trans (ih hs)

/-- `args` on a running CORE loads the eight operands and changes nothing else (30_encoding R91). -/
theorem performAll_argsLines (v : Vector Word 8) {s : State} (hs : s.fcode = 0) :
    performAll (argsLines v) s = .next { s with a := v } := by
  have hlines : argsLines v = (List.finRange 8).map (fun j => wrLine (.a j) v[j]) := rfl
  rw [hlines, performAll_operandWrites v _ hs, operandsAfter_finRange]

/-- Reads of token bytes deliver them in order, on a halted CORE too. -/
theorem performAll_tbufReads {ks : List Nat} (hks : ∀ k ∈ ks, k < 60) (s : State) :
    performAll (ks.map (fun k => .read (BitVec.ofNat 32 (Config.tbufBase + k)))) s =
      .next { s with delivered := s.delivered ++ ks.map (fun k => (s.mem.read (384 + k)).setWidth 32) } := by
  induction ks generalizing s with
  | nil => simp [performAll]
  | cons k ks ih =>
    obtain ⟨hk, hrest⟩ := List.forall_mem_cons.mp hks
    have hn : (BitVec.ofNat 32 (Config.tbufBase + k)).toNat = 384 + k := by
      rw [BitVec.toNat_ofNat, Config.tbufBase]
      omega
    have hread := perform_read_buffer (s := s) (n := BitVec.ofNat 32 (Config.tbufBase + k)) (by omega)
    rw [List.map_cons, performAll_cons _ _ _ _ hread, ih hrest, hn]
    simp

/-- `token` delivers the 60 bytes of TBUF and changes nothing else (30_encoding R91). -/
theorem performAll_tokenLines (s : State) :
    performAll tokenLines s =
      .next { s with delivered := s.delivered ++ (s.mem.bytes 384 60).map (fun b => b.setWidth 32) } := by
  rw [Memory.bytes, List.map_map]
  exact performAll_tbufReads (fun _ => List.mem_range.mp) s

/-- The end of the boot sequence (70_reset_and_hazards R232): INIT takes the nonce just written to A[0], and the hash from HACC. -/
theorem performAll_nonce_init (z : Word) {s : State} (hs : s.fcode = 0) :
    performAll [wrLine (.a 0) z, cmdLine .init] s = .next { s with f := initFields z s.hacc, a := s.a.set 0 z } := by
  have hinit := performAll_cmdLine_cons (s := { s with a := s.a.set 0 z }) hs rfl (exec_init _) []
  rw [Vector.getElem_set_self] at hinit
  exact (performAll_cons _ _ _ _ (perform_wrLine_a hs 0 z)).trans hinit

theorem performAll_bootLines (u : List Byte) (z : Word) {s : State} (hs : s.fcode = 0) :
    performAll (bootLines u z) s =
      .next { s with f := initFields z (hash32 u), hacc := hash32 u, a := s.a.set 0 z } :=
  (performAll_append _ _ _ _ (performAll_hashLines u hs)).trans (performAll_nonce_init z hs)

/-- What an EMIT leaves in TBUF is the token. -/
theorem emitOp_bytes_tbuf (s : State) :
    (emitOp s).mem.bytes 384 60 = (b64encode (obfuscate (emitPacked s))).map asciiCode := by
  rw [← emit_token_length s, ← List.length_map asciiCode, emitOp, b64Op_eq, obf_pack_refresh_obufValid]
  exact Memory.bytes_writeBytes _ 384 _

/-- The per-emission lines on a running CORE (70_reset_and_hazards R233): EMIT from the loaded operands, and its token delivered. -/
theorem performAll_emissionLines (v : Vector Word 8) {s : State} (hs : s.fcode = 0) :
    performAll (emissionLines v) s = .next { emitOp { s with a := v } with
      delivered := s.delivered ++
        (b64encode (obfuscate (emitPacked { s with a := v }))).map (fun c => (asciiCode c).setWidth 32) } := by
  have hemit := performAll_cmdLine_cons (s := { s with a := v }) hs rfl (exec_emit _) tokenLines
  rw [emissionLines, performAll_append _ _ _ _ (performAll_argsLines v hs), hemit, performAll_tokenLines, emitOp_bytes_tbuf,
    List.map_map]
  rfl

end Sys2Proof.Machine
end

section
/-! PROOFS. The statements of 70_reset_and_hazards about the host's two sequences. -/

namespace Sys2Proof.Machine

/-- Settles O50: the field file is INIT's for the nonce and the hash; a reset line only changes the state the lines start from. -/
theorem bootSequenceConstructsTheGenerator : Obligations.BootSequenceConstructsTheGenerator := by
  refine fun u z => ⟨fun s hs => ?running, fun s => ?afterReset⟩
  case running =>
    exact ⟨_, performAll_bootLines u z hs, rfl, rfl, rfl, rfl, rfl, initFields_other z (hash32 u), rfl⟩
  case afterReset =>
    have hreset : perform .reset s = .next s.resetCore := rfl
    exact ⟨_, (performAll_cons _ _ _ _ hreset).trans (performAll_bootLines u z rfl), rfl⟩

/-- Settles O51: the fields an EMIT packs are the refreshed ones, and neither it nor the 60 reads record a fault. -/
theorem emissionSequenceDeliversTheToken : Obligations.EmissionSequenceDeliversTheToken := fun v s hs =>
  ⟨refreshOp { s with a := v }, _, exec_refresh _, performAll_emissionLines v hs, rfl, rfl, rfl, hs⟩

end Sys2Proof.Machine
end
